-- ==== Sys2Proof/Word.lean ====
section
/-!
DEFINITION. The unit types of G7PDU: octets and characters (8 bits), septets (7 bits), code points (21 bits)
(`00_scope.md` R7). Counts, lengths and cursors are naturals (log 1).
-/

namespace Sys2Proof

/-- An octet of a view, or one character code of the `PDU` buffer (`OCT_W`, `CHAR_W`, R7). -/
abbrev Byte := BitVec 8

/-- A septet as `U` delivers it (`SEPT_W`, R7). -/
abbrev Septet := BitVec 7

/-- An output symbol: a Unicode code point (`CP_W`, R7, decision D7). -/
abbrev CodePoint := BitVec 21

end Sys2Proof
end

