-- ==== Sys2Proof/Config.lean ====
section
/-!
DEFINITION. What is configuration and not state (`10_state.md` R44, R48): the character tables `BASIC` and `NST`, the
codec `WEST8`, the substitutes, all at the defaults the spec prints (logs 5 to 8); the fixed constants of `00_scope.md`
R8; and the free values of the model, which have no body (logs 3, 4, 22).
-/

namespace Sys2Proof

/-- The configuration tables a decode reads (R48). The pure functions take one as an argument; the machine
uses `Config.tables`. -/
structure Tables where
  basic    : Septet → CodePoint
  nst      : Byte → Option CodePoint
  west8    : Byte → Option CodePoint
  repl     : CodePoint
  fallback : CodePoint

/-- What the document itself fixes of the tables (R41, R43), the substitutes (D18) and the placeholder (R158). -/
def Tables.Admissible (tb : Tables) : Prop :=
  tb.basic 72 = 0x48 ∧ tb.basic 101 = 0x65 ∧ tb.basic 108 = 0x6C ∧ tb.basic 111 = 0x6F ∧
  tb.basic 0x65 ≠ 0x11F ∧ tb.nst 0x65 = some 0x11F ∧ tb.repl = 0xFFFD ∧ tb.fallback = 0x3F

namespace Config

/-- `SEPT_END` (R8). -/
def septEnd : Byte := 0x00
/-- `SEPT_ESC` (R8). -/
def septEsc : Byte := 0x1B
/-- `IEI_NSS_TR` (R8). -/
def ieiNssTr : Byte := 0x24
/-- `SCTS_OCTETS` (R8). -/
def sctsOctets : Nat := 7
/-- `REPL_CP` (R7, D18). -/
def replCp : CodePoint := 0xFFFD
/-- `FALLBACK_CP` (R7, R158): the literal `?`. -/
def fallbackCp : CodePoint := 0x3F

/-- `BASIC_ESC_CP` (R40, D9): OPEN, at its default U+0020. DESIGN CHOICE, unsafe (log 8): no statement rests on it. -/
def basicEscCp : CodePoint := 0x20

/-- Rows 0x00 to 0x3F of the default `BASIC` (R40). -/
def basicLow : List CodePoint :=
  [0x40, 0xA3, 0x24, 0xA5, 0xE8, 0xE9, 0xF9, 0xEC, 0xF2, 0xC7, 0x0A, 0xD8, 0xF8, 0x0D, 0xC5, 0xE5] ++
  [0x394, 0x5F, 0x3A6, 0x393, 0x39B, 0x3A9, 0x3A0, 0x3A8, 0x3A3, 0x398, 0x39E, basicEscCp, 0xC6, 0xE6, 0xDF, 0xC9] ++
  [0x20, 0x21, 0x22, 0x23, 0xA4, 0x25, 0x26, 0x27, 0x28, 0x29, 0x2A, 0x2B, 0x2C, 0x2D, 0x2E, 0x2F] ++
  [0x30, 0x31, 0x32, 0x33, 0x34, 0x35, 0x36, 0x37, 0x38, 0x39, 0x3A, 0x3B, 0x3C, 0x3D, 0x3E, 0x3F]

/-- Rows 0x40 to 0x7F of the default `BASIC` (R40). -/
def basicHigh : List CodePoint :=
  [0xA1, 0x41, 0x42, 0x43, 0x44, 0x45, 0x46, 0x47, 0x48, 0x49, 0x4A, 0x4B, 0x4C, 0x4D, 0x4E, 0x4F] ++
  [0x50, 0x51, 0x52, 0x53, 0x54, 0x55, 0x56, 0x57, 0x58, 0x59, 0x5A, 0xC4, 0xD6, 0xD1, 0xDC, 0xA7] ++
  [0xBF, 0x61, 0x62, 0x63, 0x64, 0x65, 0x66, 0x67, 0x68, 0x69, 0x6A, 0x6B, 0x6C, 0x6D, 0x6E, 0x6F] ++
  [0x70, 0x71, 0x72, 0x73, 0x74, 0x75, 0x76, 0x77, 0x78, 0x79, 0x7A, 0xE4, 0xF6, 0xF1, 0xFC, 0xE0]

/-- The 128 entries of `BASIC` at its default (R40). DESIGN CHOICE: the OPEN table takes the spec's default (log 5). -/
def basicTable : List CodePoint := basicLow ++ basicHigh

/-- `BASIC[v]` (R40); every one of the 128 entries is defined, so the filler is never read. -/
def basic (v : Septet) : CodePoint := basicTable.getD v.toNat 0

/-- The 17 defined entries of `NST` at its default (R42, R43). DESIGN CHOICE: the OPEN table takes the spec's
default (log 6). -/
def nstTable : List (Byte × CodePoint) :=
  [(0x0A, 0x0C), (0x14, 0x5E), (0x28, 0x7B), (0x29, 0x7D), (0x2F, 0x5C), (0x3C, 0x5B), (0x3D, 0x7E), (0x3E, 0x5D),
   (0x40, 0x7C)] ++
  [(0x47, 0x11E), (0x49, 0x130), (0x53, 0x15E), (0x63, 0xE7), (0x65, 0x11F), (0x67, 0x11F), (0x69, 0x131),
   (0x73, 0x15F)]

/-- `NST[v]` (R42): `none` where the table defines nothing. -/
def nst (v : Byte) : Option CodePoint := nstTable.lookup v

/-- `WEST8` (R235, D17): OPEN, at its default ISO 8859-1, the identity. DESIGN CHOICE (log 7). -/
def west8 (b : Byte) : Option CodePoint := some (b.setWidth 21)

/-- The configuration the machine runs with. -/
def tables : Tables := { basic := basic, nst := nst, west8 := west8, repl := replCp, fallback := fallbackCp }

end Config

/-- The places where the spec leaves a value unspecified: the internal registers after an abort (R262, U9), `N`
after a reset event (R285), a result read too early (R298, U5), a text location at or above `T` (R47, U10). -/
inductive FreeSlot where
  | pos | uoff | bitpos | cnt | hp | dcs | udl | ud0 | udn | thl | span | nst | pad | cap | esc
  | resetN | earlyStatus | earlyT | earlyText (k : Nat) | aboveT (k : Nat)
  deriving DecidableEq, Repr

/-- The free value of a slot for one value of the counter `freeCtr`. It has no body: nothing is known of it
(logs 3, 4, 22). -/
opaque Config.freeValue : FreeSlot → Nat → Nat

/-- The free contents of the `PDU` buffer after a reset event (R285, U10; log 3). -/
opaque Config.freeChars : Nat → List Byte

end Sys2Proof
end

