-- ==== Sys2Proof/Syntax.lean ====
section
/-!
DEFINITION. The operations of G7PDU as syntax: one constructor per row of spec/opcode_table.json (`30_encoding.md` R90).
An operation selected by position carries no operand: the octets it works on are read by the operation itself.
-/

namespace Sys2Proof

/-- One operation of one unit (R90), or one of the rows that classify its selecting word. -/
inductive Instr where
  /-- P.HEX: the character string is checked (R200). -/
  | pHex
  /-- HEXCH.DEC: the character `c` is a decimal digit (R62). -/
  | hexDec (c : Byte)
  /-- HEXCH.UPPER: the character `c` is one of `A` to `F` (R62). -/
  | hexUpper (c : Byte)
  /-- HEXCH.LOWER: the character `c` is one of `a` to `f` (R62). -/
  | hexLower (c : Byte)
  /-- HEXCH.BAD: the character `c` is no hex digit (R62, R200). -/
  | hexBad (c : Byte)
  /-- P.SMSC (R201). -/
  | pSmsc
  /-- P.FLAGS (R202). -/
  | pFlags
  /-- P.OA (R203). -/
  | pOa
  /-- P.PID (R204). -/
  | pPid
  /-- P.DCS (R205). -/
  | pDcs
  /-- P.SCTS (R206). -/
  | pScts
  /-- P.UDL (R207). -/
  | pUdl
  /-- P.UD (R208). -/
  | pUd
  /-- H.LEN (R178). -/
  | hLen
  /-- H.IE: one header element, read whole (R179, R180). -/
  | hIe
  /-- H.IE.NSS: an element with identifier 0x24 and length `n` (R180). -/
  | hIeNss (n : Byte)
  /-- H.IE.OTHER: an element with another identifier `id` and length `n` (R180, R181). -/
  | hIeOther (id n : Byte)
  /-- H.PAD (R182). -/
  | hPad
  /-- D.SEL (R226). -/
  | dSel
  /-- D.OCT8: one octet of an 8-bit payload (R235). -/
  | dOct8
  /-- D.UCS2: one code unit or surrogate pair of a UCS-2 payload (R237). -/
  | dUcs2
  /-- D.GSM7: `U` and `G` over a 7-bit payload (R230, R240). -/
  | dGsm7
  /-- U.INIT (R132). -/
  | uInit
  /-- U.NEXT (R133). -/
  | uNext
  /-- G.INIT (R151). -/
  | gInit
  /-- G.END (R152). -/
  | gEnd
  /-- G.ESC (R153). -/
  | gEsc
  /-- G.CHR: the value `v` in state Normal (R154). -/
  | gChr (v : Byte)
  /-- G.XCHR: the value `v` in state Escaped (R155). -/
  | gXchr (v : Byte)
  /-- DECODE: the whole operation (R238). -/
  | wholeDecode
  deriving DecidableEq, Repr

end Sys2Proof
end

