-- ==== Sys2Proof/WellFormed.lean ====
section
/-!
DEFINITION. Which terms of `Instr` are operations of the block: the operand of a row must be one the row's own pattern
admits (`30_encoding.md` R91, R96, R98; spec/opcode_table.json).
-/

namespace Sys2Proof

/-- 0x30 to 0x39 (R62). -/
def isDecDigit (c : Byte) : Bool := 0x30 ≤ c.toNat && c.toNat ≤ 0x39

/-- 0x41 to 0x46 (R62). -/
def isUpperDigit (c : Byte) : Bool := 0x41 ≤ c.toNat && c.toNat ≤ 0x46

/-- 0x61 to 0x66 (R62). -/
def isLowerDigit (c : Byte) : Bool := 0x61 ≤ c.toNat && c.toNat ≤ 0x66

/-- A term is well formed when its operands lie in the row's pattern. -/
def Instr.wellFormed : Instr → Bool
  | .hexDec c     => isDecDigit c
  | .hexUpper c   => isUpperDigit c
  | .hexLower c   => isLowerDigit c
  | .hexBad c     => !(isDecDigit c || isUpperDigit c || isLowerDigit c)
  | .hIeOther i _ => i != Config.ieiNssTr
  | .gChr v       => v != Config.septEnd && v != Config.septEsc
  | .pHex | .pSmsc | .pFlags | .pOa | .pPid | .pDcs | .pScts | .pUdl | .pUd => true
  | .hLen | .hIe | .hIeNss _ | .hPad => true
  | .dSel | .dOct8 | .dUcs2 | .dGsm7 => true
  | .uInit | .uNext | .gInit | .gEnd | .gEsc | .gXchr _ | .wholeDecode => true

end Sys2Proof
end

