-- ==== Sys2Proof/Decode.lean ====
section
/-!
DEFINITION. Which operation a selecting word names (`30_encoding.md` R90 to R99, R108), and the encoder. The same octet
means different things at different places of a decode, so `decode` takes the place and the word's bytes; it is total and
rejects by name. `encode` gives one word of every operation, written from the same tables.
-/

namespace Sys2Proof

/-- `HexVal(c)` (R62): the digit value, or `none` for every code that is no hex digit. -/
def hexVal (c : Byte) : Option Nat :=
  if 0x30 ≤ c.toNat ∧ c.toNat ≤ 0x39 then some (c.toNat - 0x30)
  else if 0x41 ≤ c.toNat ∧ c.toNat ≤ 0x46 then some (c.toNat - 0x37)
  else if 0x61 ≤ c.toNat ∧ c.toNat ≤ 0x66 then some (c.toNat - 0x57)
  else none

/-- The three payload modes (R94, R226). -/
inductive PayloadMode where
  | oct8 | ucs2 | gsm7
  deriving DecidableEq, Repr

/-- The mode a DCS octet selects, tested in the order 8-bit, UCS-2, 7-bit (R94). -/
def payloadMode (dcs : Byte) : PayloadMode :=
  if dcs &&& 0x04 ≠ 0 then .oct8
  else if dcs &&& 0x0C = 0x08 then .ucs2
  else .gsm7

/-- Where in a decode a selecting word stands (R108). DESIGN CHOICE: the names are the model's (log 21). -/
inductive Place where
  /-- the host's start event -/
  | start
  /-- the whole character string (phase HEXCHK) -/
  | hexString
  /-- one character, format HEXCH (R91) -/
  | hexChar
  /-- fields 1 to 8 of format PDU (R92), selected by position -/
  | smsc | flags | oa | pid | dcs | scts | udl | ud
  /-- the header length octet, one header element (format IE, R96), the end of the walk -/
  | udhLen | udhElem | udhPad
  /-- the choice of the payload mode by phase, and the mode a DCS octet names (format DCS, R94) -/
  | dispatch | mode
  /-- one step of the 8-bit and of the UCS-2 payload, selected by phase -/
  | pay8 | payU
  /-- the three untagged operations of the 7-bit payload (R132, R133, R151) -/
  | unpackInit | unpackNext | decoderInit
  /-- one value at `G`, format SEPT (R98): the 9-bit selector in two bytes, the value first -/
  | septet
  deriving DecidableEq, Repr

/-- Why a word is no operation. -/
inductive Reject where
  /-- the format has more bytes than the word -/
  | tooShort
  /-- the word has more bytes than the format -/
  | tooLong
  /-- a SEPT selector has a bit above its nine -/
  | selectorOutOfRange
  deriving DecidableEq, Repr

/-- Format HEXCH (R91): the class of one character. -/
def decodeHexch (c : Byte) : Instr :=
  if 0x30 ≤ c.toNat ∧ c.toNat ≤ 0x39 then .hexDec c
  else if 0x41 ≤ c.toNat ∧ c.toNat ≤ 0x46 then .hexUpper c
  else if 0x61 ≤ c.toNat ∧ c.toNat ≤ 0x66 then .hexLower c
  else .hexBad c

/-- Format IE (R96): match 0x24, mask 0xFF. -/
def decodeElement (id n : Byte) : Instr :=
  if id = 0x24 then .hIeNss n else .hIeOther id n

/-- Format DCS (R94): the operation of the mode an octet selects. -/
def decodeMode (dcs : Byte) : Instr :=
  match payloadMode dcs with
  | .oct8 => .dOct8
  | .ucs2 => .dUcs2
  | .gsm7 => .dGsm7

/-- Format SEPT (R98): the pair (esc, v) selects. -/
def decodeSept (esc : Bool) (v : Byte) : Instr :=
  if esc then .gXchr v
  else if v = 0x00 then .gEnd
  else if v = 0x1B then .gEsc
  else .gChr v

/-- The bytes of a SEPT selector: the value, then the escape state (R98). -/
def septWord (esc : Bool) (v : Byte) : List Byte := [v, if esc then 1 else 0]

/-- An operation selected by position, where the position holds one octet that selects nothing: the octet may be
there or (when the string ends before it) be missing. -/
def byPositionOctet (i : Instr) : List Byte → Except Reject Instr
  | []  => .ok i
  | [_] => .ok i
  | _   => .error .tooLong

/-- An operation selected by position alone. -/
def byPosition (i : Instr) : List Byte → Except Reject Instr
  | [] => .ok i
  | _  => .error .tooLong

/-- The operation a word names at a place (R108). -/
def decode : Place → List Byte → Except Reject Instr
  | .start, w       => byPosition .wholeDecode w
  | .hexString, w   => byPosition .pHex w
  | .hexChar, w     =>
    match w with
    | []  => .error .tooShort
    | [c] => .ok (decodeHexch c)
    | _   => .error .tooLong
  | .smsc, w        => byPositionOctet .pSmsc w
  | .flags, w       => byPositionOctet .pFlags w
  | .oa, w          => byPositionOctet .pOa w
  | .pid, w         => byPositionOctet .pPid w
  | .dcs, w         => byPositionOctet .pDcs w
  | .scts, w        => byPositionOctet .pScts w
  | .udl, w         => byPositionOctet .pUdl w
  | .ud, w          => byPosition .pUd w
  | .udhLen, w      => byPositionOctet .hLen w
  | .udhElem, w     =>
    match w with
    | []      => .ok .hIe
    | [_]     => .ok .hIe
    | [id, n] => .ok (decodeElement id n)
    | _       => .error .tooLong
  | .udhPad, w      => byPosition .hPad w
  | .dispatch, w    => byPosition .dSel w
  | .mode, w        =>
    match w with
    | []    => .error .tooShort
    | [dcs] => .ok (decodeMode dcs)
    | _     => .error .tooLong
  | .pay8, w        => byPosition .dOct8 w
  | .payU, w        => byPosition .dUcs2 w
  | .unpackInit, w  => byPosition .uInit w
  | .unpackNext, w  => byPosition .uNext w
  | .decoderInit, w => byPosition .gInit w
  | .septet, w      =>
    match w with
    | []     => .error .tooShort
    | [_]    => .error .tooShort
    | [v, e] =>
      if e = 0 then .ok (decodeSept false v)
      else if e = 1 then .ok (decodeSept true v)
      else .error .selectorOutOfRange
    | _      => .error .tooLong

/-- One word of each operation, with its place: the row's match value, ignored bits 0. -/
def encode : Instr → Place × List Byte
  | .pHex         => (.hexString, [])
  | .hexDec c     => (.hexChar, [c])
  | .hexUpper c   => (.hexChar, [c])
  | .hexLower c   => (.hexChar, [c])
  | .hexBad c     => (.hexChar, [c])
  | .pSmsc        => (.smsc, [0x00])
  | .pFlags       => (.flags, [0x00])
  | .pOa          => (.oa, [0x00])
  | .pPid         => (.pid, [0x00])
  | .pDcs         => (.dcs, [0x00])
  | .pScts        => (.scts, [0x00])
  | .pUdl         => (.udl, [0x00])
  | .pUd          => (.ud, [])
  | .hLen         => (.udhLen, [0x00])
  | .hIe          => (.udhElem, [])
  | .hIeNss n     => (.udhElem, [0x24, n])
  | .hIeOther i n => (.udhElem, [i, n])
  | .hPad         => (.udhPad, [])
  | .dSel         => (.dispatch, [])
  | .dOct8        => (.mode, [0x04])
  | .dUcs2        => (.mode, [0x08])
  | .dGsm7        => (.mode, [0x00])
  | .uInit        => (.unpackInit, [])
  | .uNext        => (.unpackNext, [])
  | .gInit        => (.decoderInit, [])
  | .gEnd         => (.septet, septWord false 0x00)
  | .gEsc         => (.septet, septWord false 0x1B)
  | .gChr v       => (.septet, septWord false v)
  | .gXchr v      => (.septet, septWord true v)
  | .wholeDecode  => (.start, [])

/-- The place a bare table word is read at. The table's words are selectors of several formats and a word does not say
which, so the row with the most fixed bits that the word fits is taken (log 21): G.END and G.ESC (nine bits), H.IE.NSS
(eight), the DCS modes (two or one), G.CHR and G.XCHR (one), H.IE.OTHER (none). -/
def tableWordPlace : List Byte → Option Place
  | [b]      => if b = 0x24 then some .udhElem else some .mode
  | [lo, hi] => if lo = 0x24 then some .udhElem else if hi = 0 ∨ hi = 1 then some .septet else some .udhElem
  | _        => none

/-- The bytes of a table word, the least significant first. -/
def tableWordBytes (nbits w : Nat) : List Byte :=
  if nbits = 0 then []
  else if nbits ≤ 8 then (if w < 256 then [BitVec.ofNat 8 w] else [])
  else if nbits ≤ 16 then (if w < 65536 then [BitVec.ofNat 8 w, BitVec.ofNat 8 (w / 256)] else [])
  else []

/-- A one-byte element word is an identifier whose length octet is the operand word of zeros. -/
def completeWord : Place → List Byte → List Byte
  | .udhElem, [id] => [id, 0]
  | _, bs          => bs

/-- The operation the decoder reads from a bare table word (log 21). -/
def decodeTableWord (nbits w : Nat) : Option Instr :=
  let bs := tableWordBytes nbits w
  match tableWordPlace bs with
  | none   => none
  | some p =>
    match decode p (completeWord p bs) with
    | .ok i    => some i
    | .error _ => none

end Sys2Proof
end

