-- ==== Sys2Proof/Machine/State.lean ====
section
/-!
DEFINITION. The state of one G7PDU instance (`10_state.md` R20), plain data, the ways a step can stop, and the state
right after reset (R50).
-/

namespace Sys2Proof.Machine

/-- Contents of a character buffer: (address, character) pairs, addresses strictly rising, no entry equal to what an
unlisted address reads as (`Mem.wf`). -/
abbrev Mem := List Host.Cell

/-- The values of the sequencer register `phase` (R23), in the order of that table. -/
inductive Phase where
  | idle | hexchk | fSmsc | fFlags | fOa | fPid | fDcs | fScts | fUdl | fUd
  | udhLen | udhIe | udhPad | dispatch | pay8 | payU | pay7 | done
  deriving DecidableEq, Repr

/-- `STATUS.err` (R37, R255): the three codes that exist; code 3 is reserved and never produced (R115, U11). -/
inductive ErrCode where
  /-- code 0 -/
  | ok
  /-- code 1, `MalformedInput` -/
  | malformedInput
  /-- code 2, `StructuralHeaderError` -/
  | structuralHeaderError
  deriving DecidableEq, Repr

/-- Ways the MODEL stops where the block never comes: no state a run reaches raises one. -/
inductive Fault where
  /-- `Oct(j)` outside its domain: `j` at or above `M`, or a character pair that is not two hex digits (R63). Raised by
  every operation that reads an octet. SAFE: the rules apply no primitive outside its domain (R60; log 19). -/
  | octetOutOfDomain
  /-- `UD(k)` with `k` at or above `udn`, or with no octet behind it (R64). Raised by `H`, `U` and `D` reads. SAFE (R60;
  log 19). -/
  | userDataOutOfDomain
  /-- DECODE or D.GSM7 took more steps than the bound of R306. Raised by their loops only, and never. SAFE (log 27). -/
  | stepBoundExceeded
  deriving DecidableEq, Repr

/-- Ways the model gives an instruction no meaning. -/
inductive Refusal where
  /-- An instruction without a meaning yet, by its mnemonic. Raised by no arm of this model. SAFE. -/
  | notModelled (mnemonic : String)
  /-- The word fetched by `step` names no operation. Raised by `step` alone, and never: every phase forms a word of its
  own format (log 21). SAFE. -/
  | undecodableWord (why : Reject)
  deriving DecidableEq, Repr

/-- The complete state (R20). Widths: `10_state.md` R22 to R37; cursors and counts are naturals (log 1). -/
structure State where
  /-- `PDU[0..]`, the character buffer (R46) -/
  pdu      : Mem
  /-- `N`, the number of characters (R22) -/
  N        : Nat
  /-- the sequencer state (R23) -/
  phase    : Phase
  /-- parser cursor, in octets (R24) -/
  pos      : Nat
  /-- scanner cursor, in octets of the user data (R25) -/
  uoff     : Nat
  /-- unpacker cursor, in bits of the payload (R26); octet cursor in PAY_8 and PAY_U (R241, log 10) -/
  bitpos   : Nat
  /-- septets produced so far (R26) -/
  cnt      : Nat
  /-- `headerPresent` (R27) -/
  hp       : Bool
  /-- `dataCodingScheme` (R28) -/
  dcs      : Byte
  /-- `userDataLength` (R29) -/
  udl      : Byte
  /-- first octet of the user data (R30) -/
  ud0      : Nat
  /-- number of user-data octets (R30) -/
  udn      : Nat
  /-- `totalLength` of the header (R31) -/
  thl      : Byte
  /-- header byte span (R32) -/
  span     : Nat
  /-- `usesNationalShift` (R33) -/
  nst      : Bool
  /-- bit padding of the 7-bit payload (R34); three bits, so padding above 7 has no representation (R140) -/
  pad      : BitVec 3
  /-- septet count requested from `U` (R35) -/
  cap      : Nat
  /-- `escapePending` (R36) -/
  esc      : Bool
  /-- `TXT[0], ..., TXT[T-1]` (R47); `T` is its length (log 9) -/
  txt      : List CodePoint
  /-- `STATUS.done` (R37) -/
  done     : Bool
  /-- `STATUS.err` (R37) -/
  err      : ErrCode
  /-- `STATUS.fb` (R37) -/
  fb       : Bool
  /-- `cap_valid`, an input port of `U` (R131; log 12) -/
  capValid : Bool
  /-- the septet handed from `U` to `G`, or a value on the unit port of `G` (R131, R168; log 11) -/
  port     : Option Byte
  /-- the host's `start` event, waiting for the next step (R295; log 13) -/
  startIn  : Bool
  /-- the host's `reset` event, waiting for the next step (R295; log 13) -/
  resetIn  : Bool
  /-- the model's own counter of free values drawn (log 4) -/
  freeCtr  : Nat
  deriving DecidableEq, Repr

/-- `T`, the number of code points in `TXT` (R47). -/
def State.T (s : State) : Nat := s.txt.length

/-- The machine right after reset (R50). `N` and the contents of `PDU` are DESIGN CHOICE (log 2), the ports and events
too (logs 11 to 13), `freeCtr` as well (log 4); everything else is the table of R50. -/
def State.reset : State where
  pdu      := []
  N        := 0
  phase    := .idle
  pos      := 0
  uoff     := 0
  bitpos   := 0
  cnt      := 0
  hp       := false
  dcs      := 0
  udl      := 0
  ud0      := 0
  udn      := 0
  thl      := 0
  span     := 0
  nst      := false
  pad      := 0
  cap      := 0
  esc      := false
  txt      := []
  done     := false
  err      := .ok
  fb       := false
  capValid := true
  port     := none
  startIn  := false
  resetIn  := false
  freeCtr  := 0

/-- What an operation answers. -/
abbrev Result := Host.Outcome State Fault Refusal

end Sys2Proof.Machine
end

