-- ==== Sys2Proof/Machine/Ops.lean ====
section
/-!
DEFINITION. The named operations over memory and registers: the character buffer, the views laid over it (`20_memory.md`
R61 to R65), `Emit` (R66), the end of a decode, taking an abort (`60_exceptions.md` R262) and its counterpart, the start
sequence (`10_state.md` R51), and reset (`70_reset_and_hazards.md` R285).
-/

namespace Sys2Proof.Machine

/-- What an unlisted location of the `PDU` buffer reads as. The spec leaves the contents after reset unspecified (R46);
DESIGN CHOICE 0x00, unsafe (log 2). -/
def Mem.unlisted : Byte := 0x00

/-- `PDU[a]`. -/
def Mem.read : Mem → Nat → Byte
  | [], _          => Mem.unlisted
  | (c, x) :: m, a => if c = a then x else Mem.read m a

/-- The canonical form: addresses strictly rising, no entry equal to what an unlisted location reads as. -/
def Mem.wf : Mem → Bool
  | []               => true
  | [c]              => c.2 != Mem.unlisted
  | c :: d :: m      => decide (c.1 < d.1) && c.2 != Mem.unlisted && Mem.wf (d :: m)

/-- A buffer with `b` put in front at address `a`, unless `b` is what an unlisted location reads as. -/
def Mem.cons (a : Nat) (b : Byte) (m : Mem) : Mem := if b = Mem.unlisted then m else (a, b) :: m

/-- `PDU[a] <- b`, keeping the canonical form. -/
def Mem.write : Mem → Nat → Byte → Mem
  | [], a, b          => Mem.cons a b []
  | (c, x) :: m, a, b =>
    if a < c then Mem.cons a b ((c, x) :: m)
    else if a = c then Mem.cons a b m
    else (c, x) :: Mem.write m a b

/-- Characters stored from address `a` on. -/
def Mem.store : Mem → Nat → List Byte → Mem
  | m, _, []      => m
  | m, a, b :: bs => Mem.store (Mem.write m a b) (a + 1) bs

/-- `M = N div 2`, the number of octets; derived, not a register (R22). -/
def State.M (s : State) : Nat := s.N / 2

/-- `Chr(i)` (R61). -/
def State.chr (s : State) (i : Nat) : Byte := s.pdu.read i

/-- The characters `Chr(0), ..., Chr(N-1)` of the PDU string. -/
def State.chars (s : State) : List Byte := (List.range s.N).map s.chr

/-- The octet of a character pair, the first character the high nibble (R63), where both are hex digits. -/
def octetOf (hi lo : Byte) : Option Byte :=
  match hexVal hi, hexVal lo with
  | some a, some b => some (BitVec.ofNat 8 (16 * a + b))
  | _, _           => none

/-- `Oct(j)` on its domain (R63). -/
def State.oct? (s : State) (j : Nat) : Option Byte :=
  if j < s.M then octetOf (s.chr (2 * j)) (s.chr (2 * j + 1)) else none

/-- `UD(k)` on its domain (R64). -/
def State.ud? (s : State) (k : Nat) : Option Byte :=
  if k < s.udn then s.oct? (s.ud0 + k) else none

/-- `len(B)` of the payload `B = UD[span:]` (R227). -/
def State.payLen (s : State) : Nat := s.udn - s.span

/-- `B[i]` of the payload (R227). -/
def State.pay? (s : State) (i : Nat) : Option Byte := s.ud? (s.span + i)

/-- Use `Oct(j)`; outside its domain the model stops (R60; log 19). -/
def withOct (s : State) (j : Nat) (k : Byte → Result) : Result :=
  match s.oct? j with
  | some b => k b
  | none   => .fault .octetOutOfDomain

/-- Use `UD(k)`; outside its domain the model stops (R60; log 19). -/
def withUd (s : State) (j : Nat) (k : Byte → Result) : Result :=
  match s.ud? j with
  | some b => k b
  | none   => .fault .userDataOutOfDomain

/-- Use payload octet `i`. -/
def withPay (s : State) (i : Nat) (k : Byte → Result) : Result := withUd s (s.span + i) k

/-- `Emit(c)` (R66): `TXT[T] <- c; T <- T + 1`. -/
def emit (c : CodePoint) (s : State) : State := { s with txt := s.txt ++ [c] }

/-- The end of a decode: `phase <- DONE`, and with it `done` = 1 (R37, R152, R240, R241). -/
def finish (s : State) : State := { s with phase := .done, done := true }

/-- The internal registers hold unspecified values (R262, decision D20, U9): each takes a free value within its width,
nothing is known of any of them (log 4). -/
def scramble (s : State) : State :=
  let f := fun slot => Config.freeValue slot s.freeCtr
  { s with
    pos := f .pos, uoff := f .uoff % 512, bitpos := f .bitpos, cnt := f .cnt % 512,
    hp := f .hp % 2 == 1, dcs := BitVec.ofNat 8 (f .dcs), udl := BitVec.ofNat 8 (f .udl),
    ud0 := f .ud0, udn := f .udn, thl := BitVec.ofNat 8 (f .thl), span := f .span % 512,
    nst := f .nst % 2 == 1, pad := BitVec.ofNat 3 (f .pad), cap := f .cap % 512, esc := f .esc % 2 == 1,
    port := none, freeCtr := s.freeCtr + 1 }

/-- Abort entry (R262): `err` takes the code, `fb` and `T` are cleared, the sequencer goes to DONE. -/
def abort (e : ErrCode) (s : State) : State :=
  { scramble s with err := e, fb := false, txt := [], phase := .done, done := true }

/-- `raise` of an abort kind (R14, R262). -/
def raise (e : ErrCode) (s : State) : Result := .next (abort e s)

/-- The start sequence (R51): every register of R50 except `N`, `PDU` and `TXT` takes its reset value, `phase` takes
HEXCHK. It is the only way back from an abort (R264). -/
def startSequence (s : State) : State :=
  { State.reset with pdu := s.pdu, N := s.N, phase := .hexchk, freeCtr := s.freeCtr }

/-- A reset event (R285): the table of R50; `N` and the contents of `PDU` are then unspecified, so they are free
(log 3). -/
def resetSequence (s : State) : State :=
  { State.reset with
    pdu := Mem.store [] 0 (Config.freeChars s.freeCtr)
    N := Config.freeValue .resetN s.freeCtr
    freeCtr := s.freeCtr + 1 }

/-- A decode is running: `phase` is neither IDLE nor DONE (R299). -/
def State.busy (s : State) : Bool := s.phase != .idle && s.phase != .done

/-- A start event given while a decode runs is dropped: it neither restarts nor cancels it (R299). -/
def ignoreStart (s : State) : State := { s with startIn := false }

/-- Go on from a next state; a stop stays a stop. -/
def andThen (r : Result) (k : State → Result) : Result :=
  match r with
  | .next s    => k s
  | .fault f   => .fault f
  | .refused x => .refused x

end Sys2Proof.Machine
end

