-- ==== Sys2Proof/Machine/Operands.lean ====
section
/-!
DEFINITION. Operand forms: the bound check `Need` (`43_pdu_field_parser.md` R210), the length fields and derived counts
(`30_encoding.md` R100 to R106), septet assembly (`20_memory.md` R67), code-unit assembly (R68) and the surrogate pair.
-/

namespace Sys2Proof.Machine

/-- `Need(k)` (R210): raise MalformedInput unless `pos + k <= M`. -/
def need (k : Nat) (s : State) (cont : Result) : Result :=
  if s.pos + k > s.M then raise .malformedInput s else cont

/-- `pos <- pos + k` (R24). -/
def skip (k : Nat) (s : State) : State := { s with pos := s.pos + k }

/-- `phase <- p` (R12). -/
def goto (p : Phase) (s : State) : State := { s with phase := p }

/-- `h = ceil(a / 2) = (a + 1) div 2` (R101). -/
def oaOctets (a : Byte) : Nat := (a.toNat + 1) / 2

/-- `span = thl + 1` when a header is present (R103, decision D11). -/
def spanOf (thl : Byte) : Nat := thl.toNat + 1

/-- `2 + n` (R106). -/
def elementSize (n : Byte) : Nat := 2 + n.toNat

/-- The padding of a header of `span` octets (R104, R182). -/
def padFor (span : Nat) : Nat :=
  let r := (span * 8) % 7
  if r ≠ 0 then 7 - r else 0

/-- `cap = max(0, udl - span)` (R105, R231, decision D12): subtraction of naturals stops at 0. -/
def capFor (udl : Byte) (span : Nat) : Nat := udl.toNat - span

/-- `Bit(B, i)` of a byte sequence (R65); the filler is never read on the domain `i < 8*len(B)`. -/
def bitAt (B : List Byte) (i : Nat) : Bool := (B.getD (i / 8) 0).getLsbD (i % 8)

/-- The value of seven bits, the first the least significant: the sum over `j` of `bit j << j` (R67, R133). -/
def septetOf (bit : Nat → Bool) : Septet :=
  BitVec.ofNat 7
    ((bit 0).toNat <<< 0 + (bit 1).toNat <<< 1 + (bit 2).toNat <<< 2 + (bit 3).toNat <<< 3 +
     (bit 4).toNat <<< 4 + (bit 5).toNat <<< 5 + (bit 6).toNat <<< 6)

/-- Bit `t + j` of two neighbouring octets: which octet a stream bit lies in (R73, R97). -/
def pairBit (b0 b1 : Byte) (t j : Nat) : Bool :=
  if t + j < 8 then b0.getLsbD (t + j) else b1.getLsbD (t + j - 8)

/-- Use the septet at stream bit `q` of the payload. Its first and last bits lie in octets `q div 8` and
`(q + 6) div 8`, which are the same octet or neighbours (R73). -/
def withSeptet (s : State) (q : Nat) (k : Septet → Result) : Result :=
  withPay s (q / 8) fun b0 =>
  withPay s ((q + 6) / 8) fun b1 =>
  k (septetOf (pairBit b0 b1 (q % 8)))

/-- The stop rule of `U` (R134): a septet is available and wanted. -/
def unpackEnabled (s : State) : Bool :=
  decide (s.bitpos + 7 ≤ 8 * s.payLen) && (!s.capValid || decide (s.cnt < s.cap))

/-- One UCS-2 code unit, the first octet the high byte (R68). -/
def unitOf (hi lo : Byte) : Nat := 256 * hi.toNat + lo.toNat

/-- A unit that is no surrogate (R237). -/
def isPlainUnit (u : Nat) : Bool := decide (u < 0xD800) || decide (u > 0xDFFF)

/-- A high surrogate, among the surrogates (R99, R237). -/
def isHighSurrogate (u : Nat) : Bool := decide (0xD800 ≤ u) && decide (u ≤ 0xDBFF)

/-- A low surrogate (R99, R237). -/
def isLowSurrogate (u : Nat) : Bool := decide (0xDC00 ≤ u) && decide (u ≤ 0xDFFF)

/-- The code point of a surrogate pair (R237). -/
def pairCodePoint (u u2 : Nat) : CodePoint :=
  BitVec.ofNat 21 (0x10000 + (u - 0xD800) <<< 10 + (u2 - 0xDC00))

end Sys2Proof.Machine
end

