-- ==== Sys2Proof/Machine/Flags.lean ====
section
/-!
DEFINITION. The flags and the status byte: `hp` from the flags octet (`10_state.md` R39), `fb` (`60_exceptions.md` R258),
`nst` (R33), the layout of `STATUS` (R37).
-/

namespace Sys2Proof.Machine

/-- `UDHI`, bit 6 of the flags octet (R39, R93); the other seven bits are ignored. -/
def udhi (f : Byte) : Bool := f.getLsbD 6

/-- `note EncodingFallback`: `fb <- 1` (R258). -/
def noteFallback (s : State) : State := { s with fb := true }

/-- Emit a substitute and note it (R154, R155, R235, R237). -/
def substitute (c : CodePoint) (s : State) : State := noteFallback (emit c s)

/-- `nst` after an element with identifier `id`: set by 0x24, never cleared (R180). -/
def nstAfter (id : Byte) (nst : Bool) : Bool := nst || id == 0x24

/-- The two-bit code of `err` (R37). -/
def ErrCode.code : ErrCode → Nat
  | .ok                    => 0
  | .malformedInput        => 1
  | .structuralHeaderError => 2

/-- The byte `STATUS` (R37): bit 0 `done`, bits 2:1 `err`, bit 3 `fb`, bits 7:4 read as 0. -/
def State.status (s : State) : Byte :=
  BitVec.ofNat 8 (s.done.toNat + 2 * s.err.code + 8 * s.fb.toNat)

end Sys2Proof.Machine
end

