-- ==== Sys2Proof/Machine/Header.lean ====
section
/-!
DEFINITION. Unit H, the user-data-header scanner (`42_udh_scanner.md` R178 to R182). Every failure here is
StructuralHeaderError (R187).
-/

namespace Sys2Proof.Machine

/-- The next phase of the walk (R178, R180): another element while `uoff < span`, then the padding. -/
def walkPhase (uoff span : Nat) : Phase := if uoff < span then .udhIe else .udhPad

/-- One element with identifier `id` and length `n` at `uoff`: the two bound checks (R179), then the action (R180). -/
def walkElement (id n : Byte) (s : State) : Result :=
  if s.uoff + 1 ≥ s.span then raise .structuralHeaderError s
  else if s.uoff + elementSize n > s.span then raise .structuralHeaderError s
  else .next { s with
    nst := nstAfter id s.nst
    uoff := s.uoff + elementSize n
    phase := walkPhase (s.uoff + elementSize n) s.span }

/-- H.LEN (R178). -/
def execHLen (s : State) : Result :=
  if s.udn = 0 then raise .structuralHeaderError s
  else
    withUd s 0 fun t =>
    if spanOf t > s.udn then raise .structuralHeaderError s
    else .next { s with thl := t, span := spanOf t, uoff := 1, nst := false, phase := walkPhase 1 (spanOf t) }

/-- H.IE (R179, R180): one element, its identifier and length read from the user data. -/
def execHIe (s : State) : Result :=
  if s.uoff + 1 ≥ s.span then raise .structuralHeaderError s
  else
    withUd s s.uoff fun id =>
    withUd s (s.uoff + 1) fun n =>
    walkElement id n s

/-- H.IE.NSS (R180): an element with identifier 0x24; its length and payload are not examined but for the bounds
(R181; log 18). -/
def execHIeNss (n : Byte) (s : State) : Result := walkElement Config.ieiNssTr n s

/-- H.IE.OTHER (R180, R181): an element with another identifier advances the cursor and nothing else (log 18). -/
def execHIeOther (id n : Byte) (s : State) : Result := walkElement id n s

/-- H.PAD (R182). -/
def execHPad (s : State) : Result :=
  .next { s with pad := BitVec.ofNat 3 (padFor s.span), phase := .dispatch }

end Sys2Proof.Machine
end

