-- ==== Sys2Proof/Machine/Parser.lean ====
section
/-!
DEFINITION. Unit P, the PDU field parser (`43_pdu_field_parser.md` R200 to R208), and the character classes of format
HEXCH (`30_encoding.md` R91, `20_memory.md` R62). Every failure here is MalformedInput (R214).
-/

namespace Sys2Proof.Machine

/-- A character `P.HEX` accepts (R62, R200). -/
def isHexDigit (c : Byte) : Bool := (hexVal c).isSome

/-- The check `P.HEX` makes of one character (R200): a hex digit is accepted and no register is written (R75), any other
code raises MalformedInput (log 17). -/
def checkChar (c : Byte) (s : State) : Result := if isHexDigit c then .next s else raise .malformedInput s

/-- P.HEX (R200): the whole string is checked before any field is parsed. -/
def execPHex (s : State) : Result :=
  if s.N % 2 = 1 then raise .malformedInput s
  else if s.chars.all isHexDigit then .next { s with pos := 0, phase := .fSmsc }
  else raise .malformedInput s

/-- HEXCH.DEC (R62, R200): a decimal digit, value `c - 0x30` (`hexVal`), is accepted. -/
def execHexDec (c : Byte) (s : State) : Result := checkChar c s

/-- HEXCH.UPPER (R62, R200): an upper-case letter digit, value `c - 0x37`, is accepted. -/
def execHexUpper (c : Byte) (s : State) : Result := checkChar c s

/-- HEXCH.LOWER (R62, R200): a lower-case letter digit, value `c - 0x57`, is accepted. -/
def execHexLower (c : Byte) (s : State) : Result := checkChar c s

/-- HEXCH.BAD (R109, R200): a character that is no hex digit raises MalformedInput. -/
def execHexBad (c : Byte) (s : State) : Result := checkChar c s

/-- P.SMSC (R201): skip the length octet and the octets it counts. -/
def execPSmsc (s : State) : Result :=
  need 1 s <|
  withOct s s.pos fun n =>
  let s := skip 1 s
  need n.toNat s <|
  .next (goto .fFlags (skip n.toNat s))

/-- P.FLAGS (R202): bit 0x40 becomes `hp`. -/
def execPFlags (s : State) : Result :=
  need 1 s <|
  withOct s s.pos fun f =>
  .next (goto .fOa (skip 1 { s with hp := udhi f }))

/-- P.OA (R203): skip the digit count, the type of address and `ceil(a/2)` octets. -/
def execPOa (s : State) : Result :=
  need 1 s <|
  withOct s s.pos fun a =>
  let s := skip 1 s
  need 1 s <|
  let s := skip 1 s
  need (oaOctets a) s <|
  .next (goto .fPid (skip (oaOctets a) s))

/-- P.PID (R204): skip one octet. -/
def execPPid (s : State) : Result :=
  need 1 s <|
  .next (goto .fDcs (skip 1 s))

/-- P.DCS (R205): keep the octet as `dcs`. -/
def execPDcs (s : State) : Result :=
  need 1 s <|
  withOct s s.pos fun d =>
  .next (goto .fScts (skip 1 { s with dcs := d }))

/-- P.SCTS (R206): skip seven octets. -/
def execPScts (s : State) : Result :=
  need Config.sctsOctets s <|
  .next (goto .fUdl (skip Config.sctsOctets s))

/-- P.UDL (R207): keep the octet as `udl`. -/
def execPUdl (s : State) : Result :=
  need 1 s <|
  withOct s s.pos fun u =>
  .next (goto .fUd (skip 1 { s with udl := u }))

/-- P.UD (R208): the user data is all that is left. -/
def execPUd (s : State) : Result :=
  .next { s with
    ud0 := s.pos
    udn := s.M - s.pos
    phase := if s.hp then .udhLen else .dispatch }

end Sys2Proof.Machine
end

