-- ==== Sys2Proof/Machine/Decoder7.lean ====
section
/-!
DEFINITION. Unit G, the GSM 7-bit character decoder (`41_gsm7_decoder.md` R151 to R155). It raises nothing; the only flag
it sets is `fb` (R162).
-/

namespace Sys2Proof.Machine

/-- The value on the port has been taken (log 11). -/
def consume (s : State) : State := { s with port := none }

/-- `esc <- 0` (R151). -/
def decoderInit (s : State) : State := { s with esc := false }

/-- `BASIC[v]` for a valid index, else the placeholder with the fallback flag (R154, R155, R158). -/
def emitBasic (v : Byte) (s : State) : State :=
  if v.toNat ≤ 127 then emit (Config.tables.basic (v.setWidth 7)) s
  else substitute Config.tables.fallback s

/-- The shift-table entry an escaped value finds: none unless the table is enabled (R155). -/
def shiftEntry (useNst : Bool) (v : Byte) : Option CodePoint := if useNst then Config.tables.nst v else none

/-- G.INIT (R151). -/
def execGInit (s : State) : Result := .next (decoderInit s)

/-- G.END (R152): the text ends; nothing is emitted. -/
def execGEnd (s : State) : Result := .next (finish (consume s))

/-- G.ESC (R153): `esc <- 1`; nothing is emitted. -/
def execGEsc (s : State) : Result := .next { consume s with esc := true }

/-- G.CHR (R154). -/
def execGChr (v : Byte) (s : State) : Result := .next (emitBasic v (consume s))

/-- G.XCHR (R155): the shift table first if enabled, then the basic alphabet; `esc <- 0`. -/
def execGXchr (v : Byte) (s : State) : Result :=
  match shiftEntry s.nst v with
  | some c => .next (decoderInit (emit c (consume s)))
  | none   => .next (decoderInit (emitBasic v (consume s)))

end Sys2Proof.Machine
end

