-- ==== Sys2Proof/Machine/Unpacker.lean ====
section
/-!
DEFINITION. Unit U, the septet unpacker (`40_septet_unpacker.md` R132 to R134). It raises nothing and writes only its
cursor, its count and the septet it delivers (R142).
-/

namespace Sys2Proof.Machine

/-- `bitpos <- pad; cnt <- 0` (R132). -/
def unpackInit (s : State) : State := { s with bitpos := s.pad.toNat, cnt := 0 }

/-- The "exhausted" indication of the unit interface (R131, R134): `U` delivers nothing more. -/
def unpackExhausted (s : State) : Bool := !unpackEnabled s

/-- U.INIT (R132). -/
def execUInit (s : State) : Result := .next (unpackInit s)

/-- U.NEXT (R133): the septet at `bitpos` is delivered to `G` on `port`. When the stop rule forbids it `U` delivers
nothing (R134; log 20). -/
def execUNext (s : State) : Result :=
  if unpackEnabled s then
    withSeptet s s.bitpos fun v =>
    .next { s with bitpos := s.bitpos + 7, cnt := s.cnt + 1, port := some (v.setWidth 8) }
  else .next s

end Sys2Proof.Machine
end

