-- ==== Sys2Proof/Machine/Payload.lean ====
section
/-!
DEFINITION. Unit D, the payload dispatcher and the three payload modes (`44_payload_decoder.md` R226 to R241).
-/

namespace Sys2Proof.Machine

/-- D.SEL (R226): the mode the DCS selects; the 7-bit mode also gets its septet count and both its units started. -/
def execDSel (s : State) : Result :=
  match payloadMode s.dcs with
  | .oct8 => .next (goto .pay8 s)
  | .ucs2 => .next (goto .payU s)
  | .gsm7 => .next (goto .pay7 (decoderInit (unpackInit { s with cap := capFor s.udl s.span })))

/-- The octet cursor moves on by `k`; DONE when no octet is left (R241). The cursor is `bitpos` (log 10). -/
def advance (k : Nat) (s : State) : State :=
  if s.bitpos + k < s.payLen then { s with bitpos := s.bitpos + k }
  else finish { s with bitpos := s.bitpos + k }

/-- D.OCT8 (R235, R241): one payload octet through `WEST8`; with none left, DONE (log 26). -/
def execDOct8 (s : State) : Result :=
  if s.bitpos < s.payLen then
    withPay s s.bitpos fun b =>
    match Config.tables.west8 b with
    | some c => .next (advance 1 (emit c s))
    | none   => .next (advance 1 (substitute Config.tables.repl s))
  else .next (finish s)

/-- A high surrogate with at least one more whole unit after it (R237): a pair joins, anything else is substituted. -/
def ucs2High (u : Nat) (s : State) : Result :=
  withPay s (s.bitpos + 2) fun b2 =>
  withPay s (s.bitpos + 3) fun b3 =>
  let u2 := unitOf b2 b3
  if isLowSurrogate u2 then .next (advance 4 (emit (pairCodePoint u u2) s))
  else .next (advance 2 (substitute Config.tables.repl s))

/-- One whole code unit `u` at the cursor (R237). -/
def ucs2Unit (u : Nat) (s : State) : Result :=
  if isPlainUnit u then .next (advance 2 (emit (BitVec.ofNat 21 u) s))
  else if isHighSurrogate u && decide (s.bitpos + 3 < s.payLen) then ucs2High u s
  else .next (advance 2 (substitute Config.tables.repl s))

/-- D.UCS2 (R237, R241): one iteration of the loop; with nothing left, DONE (log 26). -/
def execDUcs2 (s : State) : Result :=
  if s.bitpos < s.payLen then
    if s.bitpos + 1 ≥ s.payLen then .next (advance 1 (substitute Config.tables.repl s))
    else
      withPay s s.bitpos fun b0 =>
      withPay s (s.bitpos + 1) fun b1 =>
      ucs2Unit (unitOf b0 b1) s
  else .next (finish s)

/-- The one of G.END, G.ESC, G.CHR, G.XCHR that (esc, v) selects (R98, R240). -/
def septetOp (v : Byte) (s : State) : Result :=
  if s.esc then execGXchr v s
  else if v = Config.septEnd then execGEnd s
  else if v = Config.septEsc then execGEsc s
  else execGChr v s

/-- `G` takes the value that waits on its port. -/
def takePort (s : State) : Result :=
  match s.port with
  | some v => septetOp v s
  | none   => .next s

/-- One step of PAY_7 (R240). A value already on the port of `G` is taken first (log 11). -/
def pay7Step (s : State) : Result :=
  match s.port with
  | some v => septetOp v s
  | none   => if unpackEnabled s then andThen (execUNext s) takePort else .next (finish s)

/-- PAY_7 steps until DONE (R240). -/
def pay7Loop : Nat → State → Result
  | 0, s     => if s.phase = .done then .next s else .fault .stepBoundExceeded
  | n + 1, s => if s.phase = .done then .next s else andThen (pay7Step s) (pay7Loop n)

/-- D.GSM7 (R230, R240): `U` and `G` over the payload, from where D.SEL's U.INIT and G.INIT left them, to DONE. Each
septet moves `bitpos` by 7, so the bound is never met (log 16, log 27). -/
def execDGsm7 (s : State) : Result := pay7Loop (8 * s.payLen + 3) (goto .pay7 s)

end Sys2Proof.Machine
end

