-- ==== Sys2Proof/Machine/Sequencer.lean ====
section
/-!
DEFINITION. The sequencer inside a decode (`10_state.md` R23, `44_payload_decoder.md` R239) and the operation DECODE
(R238) as what the sequencer does from the start sequence to DONE.
-/

namespace Sys2Proof.Machine

/-- The operation of each phase (R23). -/
def seqStep (s : State) : Result :=
  match s.phase with
  | .idle     => .next s
  | .hexchk   => execPHex s
  | .fSmsc    => execPSmsc s
  | .fFlags   => execPFlags s
  | .fOa      => execPOa s
  | .fPid     => execPPid s
  | .fDcs     => execPDcs s
  | .fScts    => execPScts s
  | .fUdl     => execPUdl s
  | .fUd      => execPUd s
  | .udhLen   => execHLen s
  | .udhIe    => execHIe s
  | .udhPad   => execHPad s
  | .dispatch => execDSel s
  | .pay8     => execDOct8 s
  | .payU     => execDUcs2 s
  | .pay7     => pay7Step s
  | .done     => .next s

/-- Phases until DONE, at most `fuel` of them. -/
def runToDone : Nat → State → Result
  | 0, s     => if s.phase = .done then .next s else .fault .stepBoundExceeded
  | n + 1, s => if s.phase = .done then .next s else andThen (seqStep s) (runToDone n)

/-- The step bound of R306. -/
def stepBound (n : Nat) : Nat := 4 * n + 200

/-- DECODE (R238, R239): on the host's start event the start sequence, then the phases to DONE. A start while a decode is
running is ignored (R299). `step` itself runs the phases one at a time (log 15). Given as one operation in IDLE or DONE it looks at
no event field and its start sequence clears both, so a waiting reset event is dropped, where `step` takes a reset before
a start (DESIGN CHOICE, log 15). -/
def execDecode (s : State) : Result :=
  if s.busy then .next s
  else runToDone (stepBound s.N) (startSequence s)

end Sys2Proof.Machine
end

