-- ==== Sys2Proof/Machine/Dispatch.lean ====
section
/-! DEFINITION. The meaning of each operation: one direct call per constructor of `Instr`. -/

namespace Sys2Proof.Machine

def exec (i : Instr) (s : State) : Host.Outcome State Fault Refusal :=
  match i with
  | .pHex => Sys2Proof.Machine.execPHex s
  | .hexDec c => Sys2Proof.Machine.execHexDec c s
  | .hexUpper c => Sys2Proof.Machine.execHexUpper c s
  | .hexLower c => Sys2Proof.Machine.execHexLower c s
  | .hexBad c => Sys2Proof.Machine.execHexBad c s
  | .pSmsc => Sys2Proof.Machine.execPSmsc s
  | .pFlags => Sys2Proof.Machine.execPFlags s
  | .pOa => Sys2Proof.Machine.execPOa s
  | .pPid => Sys2Proof.Machine.execPPid s
  | .pDcs => Sys2Proof.Machine.execPDcs s
  | .pScts => Sys2Proof.Machine.execPScts s
  | .pUdl => Sys2Proof.Machine.execPUdl s
  | .pUd => Sys2Proof.Machine.execPUd s
  | .hLen => Sys2Proof.Machine.execHLen s
  | .hIe => Sys2Proof.Machine.execHIe s
  | .hIeNss n => Sys2Proof.Machine.execHIeNss n s
  | .hIeOther id n => Sys2Proof.Machine.execHIeOther id n s
  | .hPad => Sys2Proof.Machine.execHPad s
  | .dSel => Sys2Proof.Machine.execDSel s
  | .dOct8 => Sys2Proof.Machine.execDOct8 s
  | .dUcs2 => Sys2Proof.Machine.execDUcs2 s
  | .dGsm7 => Sys2Proof.Machine.execDGsm7 s
  | .uInit => Sys2Proof.Machine.execUInit s
  | .uNext => Sys2Proof.Machine.execUNext s
  | .gInit => Sys2Proof.Machine.execGInit s
  | .gEnd => Sys2Proof.Machine.execGEnd s
  | .gEsc => Sys2Proof.Machine.execGEsc s
  | .gChr v => Sys2Proof.Machine.execGChr v s
  | .gXchr v => Sys2Proof.Machine.execGXchr v s
  | .wholeDecode => Sys2Proof.Machine.execDecode s

end Sys2Proof.Machine
end

