-- ==== Sys2Proof/Machine/Fetch.lean ====
section
/-!
DEFINITION. Which word the sequencer presents to the decoder in each phase (`30_encoding.md` R108), running it, and the
state in which the next step runs a given table word (log 15).
-/

namespace Sys2Proof.Machine

/-- The place of each phase's operation (R23); IDLE and DONE have none and are not asked. -/
def placeOf : Phase → Place
  | .idle     => .start
  | .done     => .start
  | .hexchk   => .hexString
  | .fSmsc    => .smsc
  | .fFlags   => .flags
  | .fOa      => .oa
  | .fPid     => .pid
  | .fDcs     => .dcs
  | .fScts    => .scts
  | .fUdl     => .udl
  | .fUd      => .ud
  | .udhLen   => .udhLen
  | .udhIe    => .udhElem
  | .udhPad   => .udhPad
  | .dispatch => .dispatch
  | .pay8     => .pay8
  | .payU     => .payU
  | .pay7     => .unpackNext

/-- The identifier and length octets of the element at `uoff`, where both lie inside the header (R96, R179). -/
def elementWord (s : State) : List Byte :=
  if s.uoff + 1 ≥ s.span then []
  else
    match s.ud? s.uoff, s.ud? (s.uoff + 1) with
    | some id, some n => [id, n]
    | _, _            => []

/-- The bytes that stand where the phase's operation is selected. -/
def wordAt (s : State) : List Byte :=
  match s.phase with
  | .fSmsc | .fFlags | .fOa | .fPid | .fDcs | .fScts | .fUdl => (s.oct? s.pos).toList
  | .udhLen => (s.ud? 0).toList
  | .udhIe  => elementWord s
  | _       => []

/-- Decode a word at a place and run what it names. -/
def runWord (p : Place) (w : List Byte) (s : State) : Result :=
  match decode p w with
  | .ok i    => exec i s
  | .error e => .refused (.undecodableWord e)

/-- Run the operation that the value waiting on the port of `G` selects (R98). -/
def runPort (s : State) : Result :=
  match s.port with
  | some v => runWord .septet (septWord s.esc v) s
  | none   => .next s

/-- One step of a running decode: the phase's word is fetched, decoded and run. In PAY_7 the fetch is U.NEXT, which
moves past the septet it delivers (R240); a value already on the port is run first (log 11). -/
def runPhase (s : State) : Result :=
  match s.phase with
  | .pay7 =>
    match s.port with
    | some _ => runPort s
    | none   => if unpackEnabled s then andThen (runWord .unpackNext [] s) runPort else .next (finish s)
  | p => runWord (placeOf p) (wordAt s) s

/-- The upper-case hex character of a digit value (R62). -/
def hexChar (v : Nat) : Byte := BitVec.ofNat 8 (if v < 10 then 0x30 + v else 0x37 + v)

/-- The two characters of an octet (R63). -/
def hexChars (b : Byte) : List Byte := [hexChar (b.toNat / 16), hexChar (b.toNat % 16)]

/-- The `PDU` string of these octets, loaded. -/
def loadOctets (bs : List Byte) (s : State) : State :=
  { s with pdu := Mem.store s.pdu 0 (bs.flatMap hexChars), N := 2 * bs.length }

/-- User data of these octets, from octet 0 of the string on. -/
def loadUserData (bs : List Byte) (s : State) : State :=
  { loadOctets bs s with ud0 := 0, udn := bs.length }

/-- No event waits. -/
def quiet (s : State) : State := { s with startIn := false, resetIn := false }

/-- The walk stands at an element: `UD` is the length octet and then the element's two octets, the header reaches to
the element's end (as far as nine bits do). -/
def placeElement (id n : Byte) (s : State) : State :=
  let span := min (1 + elementSize n) 256
  { loadUserData [BitVec.ofNat 8 (span - 1), id, n] (quiet s) with
    udn := span, span := span, thl := BitVec.ofNat 8 (span - 1), uoff := 1, hp := true, N := 2 * span, phase := .udhIe }

/-- A payload in the mode of a DCS octet, its octets zero (the operand words of zeros), the cursors at its start. -/
def placePayload (p : Phase) (dcs : Byte) (octets : Nat) (s : State) : State :=
  { loadUserData (List.replicate octets 0) (quiet s) with
    dcs := dcs, span := 0, pad := 0, bitpos := 0, cnt := 0, cap := 1, capValid := true, esc := false, port := none, phase := p }

/-- A value at the port of `G` (R168). -/
def placeSeptet (esc : Bool) (v : Byte) (s : State) : State :=
  { quiet s with esc := esc, port := some v, phase := .pay7 }

/-- The state whose next step runs `i`, an operation that a table word of low byte `b` names. The other operations are
selected by position and no table word names them: the state stays. -/
def placeInstr (i : Instr) (b : Byte) (s : State) : State :=
  match i with
  | .hIeNss n      => placeElement Config.ieiNssTr n s
  | .hIeOther id n => placeElement id n s
  | .dOct8         => placePayload .pay8 b 1 s
  | .dUcs2         => placePayload .payU b 2 s
  | .dGsm7         => placePayload .pay7 b 1 s
  | .gEnd          => placeSeptet false Config.septEnd s
  | .gEsc          => placeSeptet false Config.septEsc s
  | .gChr v        => placeSeptet false v s
  | .gXchr v       => placeSeptet true v s
  | .pHex | .hexDec _ | .hexUpper _ | .hexLower _ | .hexBad _ | .pSmsc | .pFlags | .pOa | .pPid | .pDcs | .pScts
  | .pUdl | .pUd | .hLen | .hIe | .hPad | .dSel | .uInit | .uNext | .gInit | .wholeDecode => s

end Sys2Proof.Machine
end

