-- ==== Sys2Proof/Machine/Step.lean ====
section
/-!
DEFINITION. One step of the machine: the host's waiting event if the block can take it, else the operation of the phase
(`70_reset_and_hazards.md` R285, R296, R299; `10_state.md` R23).
-/

namespace Sys2Proof.Machine

/-- One step (log 13, log 14). A reset event abandons whatever runs (R285). While a decode runs a start event is
ignored (R299) and the phase's operation runs. In IDLE and DONE a start event runs the start sequence (R296); without
one nothing changes (R285, R300). -/
def step (s : State) : Host.Outcome State Fault Refusal :=
  if s.resetIn then .next (resetSequence s)
  else if s.busy then runPhase (ignoreStart s)
  else if s.startIn then .next (startSequence s)
  else .next s

/-- The state whose next step runs the table word `w` of `nbits` bits (log 15, log 21). -/
def State.withFetchWord (s : State) (nbits w : Nat) : State :=
  match decodeTableWord nbits w with
  | some i => placeInstr i (BitVec.ofNat 8 w) s
  | none   => s

end Sys2Proof.Machine
end

