-- ==== Sys2Proof/Machine/HostPort.lean ====
section
/-!
DEFINITION. What the host does to the block between steps (`70_reset_and_hazards.md` R295 to R300): it writes `PDU` and
`N`, raises the two events, reads the result. Uses outside its contract have no meaning (writes while a decode runs, U4)
or answer a free value (results read too early, U5; text above `T`, U10); log 22. What stands between an event and the
step that takes it is log 28.
-/

namespace Sys2Proof.Machine

/-- The host must not write the input: from `start` until `done` = 1 (R297), so while a decode runs and also while a start
event waits for its step. That the interval begins at the event is the model's choice, and so is that a waiting reset neither
closes nor opens the input: where a decode runs or a start waits the input stays closed until the step that takes the
reset, elsewhere it is open (DESIGN CHOICE, log 28). -/
def State.inputLocked (s : State) : Bool := s.busy || s.startIn

/-- The host writes one location of `PDU`; not from `start` until `done` = 1 (R297). A write inside that interval has no
meaning in the model, where U4 leaves the decode's result any value (DESIGN CHOICE, logs 22 and 28); before the
step that takes a waiting reset a write is accepted, and lost to that reset, only if no decode runs and no start waits
(DESIGN CHOICE, log 28). -/
def hostWriteChar (a : Nat) (b : Byte) (s : State) : Option State :=
  if s.inputLocked then none else some { s with pdu := s.pdu.write a b }

/-- The host writes `N`; not from `start` until `done` = 1 (R297), as for `hostWriteChar` (logs 22, 28). -/
def hostWriteLength (n : Nat) (s : State) : Option State :=
  if s.inputLocked then none else some { s with N := n }

/-- The host loads a whole string (R296, steps 1 and 2); not from `start` until `done` = 1 (R297), as for
`hostWriteChar` (logs 22, 28). -/
def hostLoad (cs : List Byte) (s : State) : Option State :=
  if s.inputLocked then none else some { s with pdu := Mem.store s.pdu 0 cs, N := cs.length }

/-- The host gives `start` (R296, step 3); allowed at any time (R299). -/
def hostStart (s : State) : State := { s with startIn := true }

/-- The host gives `reset` (R285); allowed at any time. -/
def hostReset (s : State) : State := { s with resetIn := true }

/-- The host reads `STATUS`: while `done` = 0 only that bit is meaningful and the other three are free (R37, R298).
DESIGN CHOICE (log 22): a free `err` field may also show the reserved code 3 in such an early read, since U5 lets the read
be any value; R115 and R295 bar the code from what a decode produces, and with `done` = 1 it never shows.
Before the step that takes a waiting event this and the next two reads answer the result that stands (log 28). -/
def hostReadStatus (s : State) : Byte :=
  if s.done then s.status else BitVec.ofNat 8 (2 * (Config.freeValue .earlyStatus s.freeCtr % 8))

/-- The host reads `T` (R298). DESIGN CHOICE (log 22): the free value of an early read, here and in the other two reads, is
drawn at `freeCtr`, which a read does not move (R298: reading has no side effect) and a step moves only at an abort or a
reset event; so early reads of one thing within one decode answer one value, where U5 allows any value each time. -/
def hostReadT (s : State) : Nat :=
  if s.done then s.T else Config.freeValue .earlyT s.freeCtr

/-- The host reads `TXT[k]` (R47, R298). -/
def hostReadText (k : Nat) (s : State) : CodePoint :=
  if s.done then
    match s.txt[k]? with
    | some c => c
    | none   => BitVec.ofNat 21 (Config.freeValue (.aboveT k) s.freeCtr)
  else BitVec.ofNat 21 (Config.freeValue (.earlyText k) s.freeCtr)

/-- The reportable result of a decode (R305): `err`, `fb`, `TXT[0..T-1]`. -/
structure DecodeResult where
  err  : ErrCode
  fb   : Bool
  text : List CodePoint
  deriving DecidableEq, Repr

/-- The result a state holds. -/
def State.result (s : State) : DecodeResult := { err := s.err, fb := s.fb, text := s.txt }

end Sys2Proof.Machine
end

