-- ==== Sys2Proof/Machine/Functions.lean ====
section
/-!
DEFINITION. The units as functions on finite sequences (`00_scope.md` R15), transcribed from the spec's function rules and
independent of the sequencer; and the reference function `Pack` of `95_test_vectors.md`, which is no operation of the
block. Each takes the configuration tables it reads as an argument (R48).
-/

namespace Sys2Proof.Machine

/-- `Unpack(B, p, cap)` in closed form (R135). A natural subtraction gives `A = 0` when `8*m < p`. -/
def unpackCount (m p : Nat) (cap : Option Nat) : Nat :=
  let a := (8 * m - p) / 7
  match cap with
  | none   => a
  | some c => min a c

/-- `Unpack(B, p, cap)` (R130, R135). -/
def unpack (B : List Byte) (p : BitVec 3) (cap : Option Nat) : List Septet :=
  (List.range (unpackCount B.length p.toNat cap)).map fun k =>
    septetOf fun j => bitAt B (p.toNat + 7 * k + j)

/-- The bits of a septet, the least significant first. -/
def septetBits (v : Septet) : List Bool := (List.range 7).map v.getLsbD

/-- The octet of eight bits, the first the least significant; missing bits are 0. -/
def byteOfBits (bits : List Bool) : Byte :=
  BitVec.ofNat 8 (((List.range 8).map fun j => (bits.getD j false).toNat <<< j).sum)

/-- The bit string of `Pack(S, p)` before it is cut into octets. -/
def packBits (S : List Septet) (p : BitVec 3) : List Bool :=
  List.replicate p.toNat false ++ S.flatMap septetBits

/-- `Pack(S, p)` (`95_test_vectors.md` part 0): the reference packer of R143. -/
def pack (S : List Septet) (p : BitVec 3) : List Byte :=
  let bits := packBits S p
  (List.range ((bits.length + 7) / 8)).map fun i => byteOfBits (bits.drop (8 * i))

/-- `go` of R165. -/
def g7Go (tb : Tables) (useNst : Bool) : List Byte → Bool → List CodePoint → Bool → List CodePoint × Bool
  | [], _, out, fb         => (out, fb)
  | v :: r, false, out, fb =>
    if v = 0x00 then (out, fb)
    else if v = 0x1B then g7Go tb useNst r true out fb
    else if v.toNat ≤ 127 then g7Go tb useNst r false (out ++ [tb.basic (v.setWidth 7)]) fb
    else g7Go tb useNst r false (out ++ [tb.fallback]) true
  | v :: r, true, out, fb  =>
    match (if useNst then tb.nst v else none) with
    | some c => g7Go tb useNst r false (out ++ [c]) fb
    | none   =>
      if v.toNat ≤ 127 then g7Go tb useNst r false (out ++ [tb.basic (v.setWidth 7)]) fb
      else g7Go tb useNst r false (out ++ [tb.fallback]) true

/-- `G7Decode(S, useNst)` (R150, R165), on the 8-bit unit port (R168). -/
def g7Decode (tb : Tables) (S : List Byte) (useNst : Bool) : List CodePoint × Bool :=
  g7Go tb useNst S false [] false

/-- A septet on the 8-bit port of `G` (R168). -/
def portValue (v : Septet) : Byte := v.setWidth 8

/-- The result of a header scan (R175). -/
structure HeaderScan where
  thl  : Byte
  span : Nat
  nst  : Bool
  pad  : BitVec 3
  deriving DecidableEq, Repr

/-- `walk` of R189. Each round moves `o` by at least 2, so a fuel of the header's length is never used up. -/
def udhWalk (UD : List Byte) (span : Nat) : Nat → Nat → Bool → Option Bool
  | 0, _, _         => none
  | fuel + 1, o, nst =>
    if o ≥ span then some nst
    else if o + 1 ≥ span then none
    else
      let id := UD.getD o 0
      let n := UD.getD (o + 1) 0
      if o + elementSize n > span then none
      else udhWalk UD span fuel (o + elementSize n) (nst || id == 0x24)

/-- `ScanUDH(UD)` (R175, R189); `none` is StructuralHeaderError. -/
def scanUdh (UD : List Byte) : Option HeaderScan :=
  match UD with
  | []       => none
  | thl :: _ =>
    if spanOf thl > UD.length then none
    else
      match udhWalk UD (spanOf thl) (spanOf thl) 1 false with
      | none     => none
      | some nst => some { thl := thl, span := spanOf thl, nst := nst, pad := BitVec.ofNat 3 (padFor (spanOf thl)) }

/-- The element list from offset `o` on (R184): identifier and payload of each. -/
def elementsFrom (UD : List Byte) (span : Nat) : Nat → Nat → List (Byte × List Byte)
  | 0, _        => []
  | fuel + 1, o =>
    if o < span then
      let n := (UD.getD (o + 1) 0).toNat
      (UD.getD o 0, (UD.drop (o + 2)).take n) :: elementsFrom UD span fuel (o + 2 + n)
    else []

/-- `Elements(UD)` (R184), meant where `ScanUDH` succeeds. -/
def elements (UD : List Byte) : List (Byte × List Byte) :=
  elementsFrom UD (spanOf (UD.getD 0 0)) (spanOf (UD.getD 0 0)) 1

/-- `Octets(C)` (R213): the octets of a string of hex digits of even length, else `none`. -/
def octetsOf : List Byte → Option (List Byte)
  | []          => some []
  | [_]         => none
  | a :: b :: r =>
    match octetOf a b, octetsOf r with
    | some o, some os => some (o :: os)
    | _, _            => none

/-- The result of a parse (R209). -/
structure PduFields where
  hp  : Bool
  dcs : Byte
  udl : Byte
  ud  : List Byte
  deriving DecidableEq, Repr

/-- `take(pos, k)` of R213 on a string of `m` octets. -/
def takeOctets (m pos k : Nat) : Option Nat := if pos + k > m then none else some (pos + k)

/-- `ParsePDU(C)` (R209, R213); `none` is MalformedInput. -/
def parsePdu (C : List Byte) : Option PduFields := do
  let O ← octetsOf C
  let m := O.length
  let p1 ← takeOctets m 0 1
  let p2 ← takeOctets m p1 (O.getD 0 0).toNat
  let p3 ← takeOctets m p2 1
  let p4 ← takeOctets m p3 1
  let p5 ← takeOctets m p4 1
  let p6 ← takeOctets m p5 (oaOctets (O.getD p3 0))
  let p7 ← takeOctets m p6 1
  let p8 ← takeOctets m p7 1
  let p9 ← takeOctets m p8 7
  let p10 ← takeOctets m p9 1
  return { hp := udhi (O.getD p2 0), dcs := O.getD p7 0, udl := O.getD p9 0, ud := O.drop p10 }

/-- `West8Text(B)` (R235, R236), with the fallback flag. -/
def west8Text (tb : Tables) : List Byte → List CodePoint × Bool
  | []     => ([], false)
  | b :: r =>
    let rest := west8Text tb r
    match tb.west8 b with
    | some c => (c :: rest.1, rest.2)
    | none   => (tb.repl :: rest.1, true)

/-- `Ucs2Text(B)` (R237), with the fallback flag, on the octets from an even offset on. -/
def ucs2Text (tb : Tables) : List Byte → List CodePoint × Bool
  | []                        => ([], false)
  | [_]                       => ([tb.repl], true)
  | [b0, b1]                  =>
    if isPlainUnit (unitOf b0 b1) then ([BitVec.ofNat 21 (unitOf b0 b1)], false) else ([tb.repl], true)
  | [b0, b1, _]               =>
    if isPlainUnit (unitOf b0 b1) then ([BitVec.ofNat 21 (unitOf b0 b1), tb.repl], true) else ([tb.repl, tb.repl], true)
  | b0 :: b1 :: b2 :: b3 :: r =>
    let u := unitOf b0 b1
    if isPlainUnit u then
      let rest := ucs2Text tb (b2 :: b3 :: r)
      (BitVec.ofNat 21 u :: rest.1, rest.2)
    else if isHighSurrogate u && isLowSurrogate (unitOf b2 b3) then
      let rest := ucs2Text tb r
      (pairCodePoint u (unitOf b2 b3) :: rest.1, rest.2)
    else
      let rest := ucs2Text tb (b2 :: b3 :: r)
      (tb.repl :: rest.1, true)

/-- `DecodePayload(dcs, UD, udl, hdr)` (R225, R238), the header as `span`, `nst`, `pad` (0, false, 0 without one, R233). -/
def decodePayload (tb : Tables) (dcs : Byte) (UD : List Byte) (udl : Byte) (span : Nat) (nst : Bool) (pad : BitVec 3) :
    List CodePoint × Bool :=
  let B := UD.drop span
  match payloadMode dcs with
  | .oct8 => west8Text tb B
  | .ucs2 => ucs2Text tb B
  | .gsm7 => g7Decode tb ((unpack B pad (some (capFor udl span))).map portValue) nst

/-- An abort's result (R238, R262). -/
def abortResult (e : ErrCode) : DecodeResult := { err := e, fb := false, text := [] }

/-- A success's result (R238). -/
def textResult (t : List CodePoint × Bool) : DecodeResult := { err := .ok, fb := t.2, text := t.1 }

/-- `Decode(C)` (R238): the whole decode as a function of the character string. -/
def decodePdu (tb : Tables) (C : List Byte) : DecodeResult :=
  match parsePdu C with
  | none   => abortResult .malformedInput
  | some f =>
    if f.hp then
      match scanUdh f.ud with
      | none   => abortResult .structuralHeaderError
      | some h => textResult (decodePayload tb f.dcs f.ud f.udl h.span h.nst h.pad)
    else textResult (decodePayload tb f.dcs f.ud f.udl 0 false 0)

end Sys2Proof.Machine
end

