-- ==== Sys2Proof/Safety.lean ====
section
/-!
DEFINITION. What counts as a safe run: the invariant that ties each phase to what the phases before it have established,
and the tables of reset and start (`10_state.md` R50, R51), in the terms the statements use.
-/

namespace Sys2Proof.Machine

/-- `P.HEX` would pass (R200): `N` is even and every character of the string is a hex digit. -/
def State.HexOk (s : State) : Prop := s.N % 2 = 0 ∧ ∀ i < s.N, (hexVal (s.chr i)).isSome = true

/-- Every octet of the user data can be read (R64). -/
def State.UserDataReadable (s : State) : Prop := ∀ k < s.udn, (s.ud? k).isSome = true

/-- The registers that R50 and R51 put at 0, all but `phase`. -/
def State.AtStartValues (s : State) : Prop :=
  s.pos = 0 ∧ s.uoff = 0 ∧ s.bitpos = 0 ∧ s.cnt = 0 ∧ s.hp = false ∧ s.dcs = 0 ∧ s.udl = 0 ∧ s.ud0 = 0 ∧ s.udn = 0 ∧
  s.thl = 0 ∧ s.span = 0 ∧ s.nst = false ∧ s.pad = 0 ∧ s.cap = 0 ∧ s.esc = false ∧ s.T = 0 ∧
  s.done = false ∧ s.err = .ok ∧ s.fb = false

/-- Nothing emitted, nothing raised, nothing noted. -/
def State.Clean (s : State) : Prop := s.err = .ok ∧ s.fb = false ∧ s.txt = []

/-- The header and payload registers still hold their start values. -/
def State.Unscanned (s : State) : Prop :=
  s.uoff = 0 ∧ s.thl = 0 ∧ s.span = 0 ∧ s.nst = false ∧ s.pad = 0 ∧ s.bitpos = 0 ∧ s.cnt = 0 ∧ s.cap = 0 ∧ s.esc = false

/-- The user data is the rest of the string (R208), and the header, if any, lies inside it (R178). -/
def State.Window (s : State) : Prop := s.HexOk ∧ s.ud0 + s.udn = s.M ∧ s.span ≤ s.udn

/-- The header length has been read (R178). -/
def State.HeaderRead (s : State) : Prop :=
  s.Clean ∧ s.Window ∧ s.hp = true ∧ s.span = spanOf s.thl ∧ s.pad = 0 ∧ s.bitpos = 0 ∧ s.cnt = 0 ∧ s.cap = 0 ∧
  s.esc = false

/-- What `span`, `nst` and `pad` are when the payload is chosen (R104, R176, R182). -/
def State.HeaderScanned (s : State) : Prop :=
  s.Window ∧ s.span ≤ 256 ∧ s.pad = BitVec.ofNat 3 (padFor s.span) ∧
  (s.hp = false → s.span = 0 ∧ s.nst = false) ∧ (s.hp = true → s.span = spanOf s.thl)

/-- What each phase may rely on. -/
def State.PhaseInv (s : State) : Prop :=
  match s.phase with
  | .idle     => s.Clean
  | .hexchk   => s.Clean ∧ s.Unscanned
  | .fSmsc | .fFlags | .fOa | .fPid | .fDcs | .fScts | .fUdl | .fUd =>
    s.Clean ∧ s.Unscanned ∧ s.HexOk ∧ s.pos ≤ s.M
  | .udhLen   => s.Clean ∧ s.Unscanned ∧ s.HexOk ∧ s.hp = true ∧ s.ud0 + s.udn = s.M
  | .udhIe    => s.HeaderRead ∧ 1 ≤ s.uoff ∧ s.uoff < s.span
  | .udhPad   => s.HeaderRead ∧ s.uoff = s.span
  | .dispatch => s.Clean ∧ s.HeaderScanned ∧ s.bitpos = 0 ∧ s.cnt = 0 ∧ s.cap = 0 ∧ s.esc = false
  | .pay8     => s.err = .ok ∧ s.HeaderScanned ∧ s.bitpos ≤ s.payLen ∧ s.T = s.bitpos
  | .payU     => s.err = .ok ∧ s.HeaderScanned ∧ s.bitpos ≤ s.payLen ∧ s.T ≤ s.bitpos
  | .pay7     =>
    s.err = .ok ∧ s.fb = false ∧ s.HeaderScanned ∧ s.cap = capFor s.udl s.span ∧ s.bitpos = s.pad.toNat + 7 * s.cnt ∧
    s.cnt ≤ s.cap ∧ (s.cnt = 0 ∨ s.bitpos ≤ 8 * s.payLen) ∧ s.T ≤ s.cnt
  | .done     => s.err ≠ .ok → s.fb = false ∧ s.txt = []

/-- Every counter of a stated width fits it (R25, R26, R32, R35). -/
def State.Fits (s : State) : Prop := s.uoff < 2 ^ 9 ∧ s.cnt < 2 ^ 9 ∧ s.span < 2 ^ 9 ∧ s.cap < 2 ^ 9

/-- The invariant of a run: memory canonical, `done` the level of DONE (R37), the ports at rest between steps, every
counter inside its width, and what the phase relies on. -/
def State.Inv (s : State) : Prop :=
  s.pdu.wf = true ∧ (s.done = true ↔ s.phase = .done) ∧ s.port = none ∧ s.capValid = true ∧ s.Fits ∧ s.PhaseInv

/-- `PDU` and `N` are as before: every location reads the same. -/
def SameInput (s t : State) : Prop := t.N = s.N ∧ ∀ a, t.pdu.read a = s.pdu.read a

/-- What an abort makes host-visible (R262). -/
def Aborted (e : ErrCode) (t : State) : Prop :=
  t.err = e ∧ t.fb = false ∧ t.T = 0 ∧ t.phase = .done ∧ t.done = true

/-- The state after one payload step of `PAY_8` or `PAY_U` that emits `c` and takes `k` octets (R241); `sub` says that `c` is
a substitute. The cursor is `bitpos` (log 10). -/
def payloadStep (c : CodePoint) (sub : Bool) (k : Nat) (s : State) : State :=
  { s with
    txt := s.txt ++ [c]
    fb := s.fb || sub
    bitpos := s.bitpos + k
    phase := if s.bitpos + k < s.payLen then s.phase else .done
    done := if s.bitpos + k < s.payLen then s.done else true }

/-- The values presented to `G` one after another on its unit port, until the text ends (R165, R168). -/
def feed : List Byte → State → Result
  | [], s     => .next s
  | v :: r, s =>
    andThen (runWord .septet (septWord s.esc v) s) fun t => if t.phase = .done then .next t else feed r t

/-- The five units (R2). -/
inductive UnitName where
  | u | g | h | p | d
  deriving DecidableEq, Repr

/-- The unit an operation belongs to (R90); DECODE is the whole block. -/
def unitOfInstr : Instr → Option UnitName
  | .pHex | .hexDec _ | .hexUpper _ | .hexLower _ | .hexBad _ => some .p
  | .pSmsc | .pFlags | .pOa | .pPid | .pDcs | .pScts | .pUdl | .pUd => some .p
  | .hLen | .hIe | .hIeNss _ | .hIeOther _ _ | .hPad => some .h
  | .dSel | .dOct8 | .dUcs2 | .dGsm7 => some .d
  | .uInit | .uNext => some .u
  | .gInit | .gEnd | .gEsc | .gChr _ | .gXchr _ => some .g
  | .wholeDecode => none

/-- The operations that emit text (R75). -/
def emitsText : Instr → Bool
  | .dOct8 | .dUcs2 | .dGsm7 | .gChr _ | .gXchr _ | .wholeDecode => true
  | .pHex | .hexDec _ | .hexUpper _ | .hexLower _ | .hexBad _ => false
  | .pSmsc | .pFlags | .pOa | .pPid | .pDcs | .pScts | .pUdl | .pUd => false
  | .hLen | .hIe | .hIeNss _ | .hIeOther _ _ | .hPad | .dSel => false
  | .uInit | .uNext | .gInit | .gEnd | .gEsc => false

end Sys2Proof.Machine
end

