-- ==== Sys2Proof/Certificates/Slice0/Obligations.lean ====
section
/-!
DEFINITION. The statements for the provers. Each docstring names the rules of spec/ it formalises; where a clause rests on
a choice of the model, it names the log entry.
-/

open Sys2Proof Sys2Proof.Machine

/-! ## Reset, start, abort, result -/

/-- R50, R285: the state right after reset, and the state after a reset event on any machine, hold the values of the
table; `N`, `PDU` and `TXT` are not in it. -/
def Obligations.ResetGivesTheTableOfValues : Prop :=
  (State.reset.phase = .idle ∧ State.reset.AtStartValues) ∧
  ∀ s : State, s.resetIn = true → ∃ t, step s = .next t ∧ t.phase = .idle ∧ t.AtStartValues

/-- R51: a start in IDLE or DONE puts every register at its reset value, `phase` at HEXCHK, and leaves `N` and `PDU`. -/
def Obligations.StartSetsEveryRegisterButTheInput : Prop :=
  ∀ s : State, s.resetIn = false → s.busy = false → s.startIn = true →
    ∃ t, step s = .next t ∧ t.phase = .hexchk ∧ t.AtStartValues ∧ SameInput s t

/-- R299: a start while a decode runs changes nothing of it, and DECODE then does nothing. -/
def Obligations.StartWhileRunningIsIgnored : Prop :=
  ∀ s : State, s.resetIn = false → s.busy = true →
    step { s with startIn := true } = step { s with startIn := false } ∧ exec .wholeDecode s = .next s

/-- R300 for DONE, R285 and R296 for IDLE: with no event the block stays as it is, and until the next start is given the
host may load the next string without disturbing the result. That a load is accepted also between a reset event and the
step that takes it is the model's choice (log 28). -/
def Obligations.ResultStaysUntilTheNextEvent : Prop :=
  ∀ s : State, s.busy = false →
    (s.resetIn = false → s.startIn = false → step s = .next s) ∧
    (s.startIn = false → ∀ cs : List Byte, ∃ t, hostLoad cs s = some t ∧ t.status = s.status ∧ t.T = s.T ∧ t.txt = s.txt ∧
      t.N = cs.length ∧ t.phase = s.phase)

/-- R262: what an abort leaves host-visible. Nothing is said of the internal registers: they are unspecified. -/
def Obligations.AbortLeavesOnlyTheCode : Prop :=
  ∀ (e : ErrCode) (s : State), ∃ t, raise e s = .next t ∧ Aborted e t ∧ SameInput s t

/-- R37: the layout of STATUS on a run, and that the host reads it so once `done` is 1. That the read answers so also before
the step that takes a waiting event is the model's choice (log 28). -/
def Obligations.StatusByteLayout : Prop :=
  ∀ s : State, s.Inv →
    s.status.getLsbD 0 = decide (s.phase = .done) ∧
    ((s.status >>> 1) &&& 3).toNat = (match s.err with | .ok => 0 | .malformedInput => 1 | .structuralHeaderError => 2) ∧
    s.status.getLsbD 3 = s.fb ∧ s.status >>> 4 = 0 ∧
    (s.done = true → hostReadStatus s = s.status)

/-- R298: once `done` is 1 the host reads the text, and after an error there is none. That this holds before the step that
takes a waiting event is log 28. -/
def Obligations.HostReadsTheResult : Prop :=
  ∀ s : State, s.Inv → s.done = true →
    hostReadT s = s.T ∧ (∀ k c, s.txt[k]? = some c → hostReadText k s = c) ∧ (s.err ≠ .ok → hostReadT s = 0)

/-! ## Unit P -/

/-- R62, R91: the value of every character, and the HEXCH row it decodes to. That a row is an operation of its own, which
leaves the state for a digit and raises MalformedInput for the fourth class (R109, R200), is the model's choice (log 17). -/
def Obligations.HexCharactersByClass : Prop :=
  ∀ (c : Byte) (s : State),
    ((Instr.hexDec c).wellFormed = true → hexVal c = some (c.toNat - 0x30) ∧ exec (.hexDec c) s = .next s) ∧
    ((Instr.hexUpper c).wellFormed = true → hexVal c = some (c.toNat - 0x37) ∧ exec (.hexUpper c) s = .next s) ∧
    ((Instr.hexLower c).wellFormed = true → hexVal c = some (c.toNat - 0x57) ∧ exec (.hexLower c) s = .next s) ∧
    ((Instr.hexBad c).wellFormed = true →
      hexVal c = none ∧ exec (.hexBad c) s = .next (abort .malformedInput s)) ∧
    ∃ i, decode .hexChar [c] = .ok i ∧ i.wellFormed = true ∧
      (i = .hexDec c ∨ i = .hexUpper c ∨ i = .hexLower c ∨ i = .hexBad c)

/-- R200: P.HEX passes exactly an even count of hex digits. -/
def Obligations.HexCheckCoversTheWholeString : Prop :=
  ∀ s : State,
    (s.HexOk → exec .pHex s = .next { s with pos := 0, phase := .fSmsc }) ∧
    (s.N % 2 = 1 → exec .pHex s = raise .malformedInput s) ∧
    ((∃ i < s.N, hexVal (s.chr i) = none) → exec .pHex s = raise .malformedInput s)

/-- R201: P.SMSC. -/
def Obligations.SmscFieldIsSkipped : Prop :=
  ∀ s : State,
    (s.M < s.pos + 1 → exec .pSmsc s = raise .malformedInput s) ∧
    ∀ n, s.oct? s.pos = some n →
      (s.M < s.pos + 1 + n.toNat → exec .pSmsc s = raise .malformedInput s) ∧
      (s.pos + 1 + n.toNat ≤ s.M → exec .pSmsc s = .next { s with pos := s.pos + 1 + n.toNat, phase := .fFlags })

/-- R202: P.FLAGS copies bit 6 and nothing else. -/
def Obligations.FlagsFieldGivesHp : Prop :=
  ∀ s : State,
    (s.M < s.pos + 1 → exec .pFlags s = raise .malformedInput s) ∧
    ∀ f, s.oct? s.pos = some f →
      exec .pFlags s = .next { s with hp := (f >>> 6).getLsbD 0, pos := s.pos + 1, phase := .fOa }

/-- R203: P.OA, with its three bound checks. -/
def Obligations.OriginatingAddressIsSkipped : Prop :=
  ∀ s : State,
    (s.M < s.pos + 1 → exec .pOa s = raise .malformedInput s) ∧
    ∀ a, s.oct? s.pos = some a →
      (s.M < s.pos + 2 → exec .pOa s = raise .malformedInput s) ∧
      (s.M < s.pos + 2 + (a.toNat + 1) / 2 → exec .pOa s = raise .malformedInput s) ∧
      (s.pos + 2 + (a.toNat + 1) / 2 ≤ s.M →
        exec .pOa s = .next { s with pos := s.pos + 2 + (a.toNat + 1) / 2, phase := .fPid })

/-- R204, R206: P.PID and P.SCTS skip one octet and seven. -/
def Obligations.PidAndTimestampAreSkipped : Prop :=
  ∀ s : State,
    (s.M < s.pos + 1 → exec .pPid s = raise .malformedInput s) ∧
    (s.pos + 1 ≤ s.M → exec .pPid s = .next { s with pos := s.pos + 1, phase := .fDcs }) ∧
    (s.M < s.pos + 7 → exec .pScts s = raise .malformedInput s) ∧
    (s.pos + 7 ≤ s.M → exec .pScts s = .next { s with pos := s.pos + 7, phase := .fUdl })

/-- R205, R207: P.DCS and P.UDL keep their octet whole. -/
def Obligations.DcsAndUdlAreKept : Prop :=
  ∀ s : State,
    (s.M < s.pos + 1 → exec .pDcs s = raise .malformedInput s ∧ exec .pUdl s = raise .malformedInput s) ∧
    ∀ b, s.oct? s.pos = some b →
      exec .pDcs s = .next { s with dcs := b, pos := s.pos + 1, phase := .fScts } ∧
      exec .pUdl s = .next { s with udl := b, pos := s.pos + 1, phase := .fUd }

/-- R208: P.UD. -/
def Obligations.UserDataIsTheRest : Prop :=
  ∀ s : State,
    exec .pUd s = .next { s with
      ud0 := s.pos, udn := s.M - s.pos, phase := if s.hp = true then .udhLen else .dispatch }

/-- The model's choice (log 19): where the octet an operation reads lies outside the domain of `Oct` or `UD`, the model
stops by name; no run meets it. -/
def Obligations.ReadsOutsideTheirDomainStop : Prop :=
  ∀ s : State,
    (s.pos + 1 ≤ s.M → s.oct? s.pos = none →
      ∀ i ∈ [Instr.pSmsc, .pFlags, .pOa, .pDcs, .pUdl], exec i s = .fault .octetOutOfDomain) ∧
    (s.udn ≠ 0 → s.ud? 0 = none → exec .hLen s = .fault .userDataOutOfDomain) ∧
    (s.uoff + 1 < s.span → s.ud? s.uoff = none ∨ s.ud? (s.uoff + 1) = none →
      exec .hIe s = .fault .userDataOutOfDomain) ∧
    (s.bitpos < s.payLen → s.pay? s.bitpos = none → exec .dOct8 s = .fault .userDataOutOfDomain) ∧
    (s.bitpos + 1 < s.payLen → s.pay? s.bitpos = none ∨ s.pay? (s.bitpos + 1) = none →
      exec .dUcs2 s = .fault .userDataOutOfDomain) ∧
    (∀ b0 b1, s.bitpos + 3 < s.payLen → s.pay? s.bitpos = some b0 → s.pay? (s.bitpos + 1) = some b1 →
      isHighSurrogate (unitOf b0 b1) = true → s.pay? (s.bitpos + 2) = none ∨ s.pay? (s.bitpos + 3) = none →
      exec .dUcs2 s = .fault .userDataOutOfDomain) ∧
    (unpackEnabled s = true → s.pay? (s.bitpos / 8) = none ∨ s.pay? ((s.bitpos + 6) / 8) = none →
      exec .uNext s = .fault .userDataOutOfDomain ∧
      (s.port = none → exec .dGsm7 s = .fault .userDataOutOfDomain))

/-! ## Unit H -/

/-- R178: H.LEN. -/
def Obligations.HeaderLengthIsRead : Prop :=
  ∀ s : State,
    (s.udn = 0 → exec .hLen s = raise .structuralHeaderError s) ∧
    ∀ t, s.ud? 0 = some t →
      (s.udn < t.toNat + 1 → exec .hLen s = raise .structuralHeaderError s) ∧
      (t.toNat + 1 ≤ s.udn → exec .hLen s = .next { s with
        thl := t, span := t.toNat + 1, uoff := 1, nst := false,
        phase := if 1 < t.toNat + 1 then .udhIe else .udhPad })

/-- R179, R180: one header element, by identifier; an element that does not fit the header raises. -/
def Obligations.HeaderElementIsWalked : Prop :=
  ∀ (s : State) (id n : Byte), id ≠ 0x24 →
    (s.span ≤ s.uoff + 1 ∨ s.span < s.uoff + 2 + n.toNat →
      exec (.hIeNss n) s = raise .structuralHeaderError s ∧
      exec (.hIeOther id n) s = raise .structuralHeaderError s) ∧
    (s.uoff + 1 < s.span → s.uoff + 2 + n.toNat ≤ s.span →
      exec (.hIeNss n) s = .next { s with
        nst := true, uoff := s.uoff + 2 + n.toNat,
        phase := if s.uoff + 2 + n.toNat < s.span then .udhIe else .udhPad } ∧
      exec (.hIeOther id n) s = .next { s with
        uoff := s.uoff + 2 + n.toNat,
        phase := if s.uoff + 2 + n.toNat < s.span then .udhIe else .udhPad })

/-- R179, R180: H.IE reads identifier and length of the element at `uoff` and is then the row its identifier selects. That
the rows include the bound checks, so that they agree with H.IE where the element does not fit, is log 18. -/
def Obligations.HeaderElementIsSelectedByIdentifier : Prop :=
  ∀ (s : State) (id n : Byte),
    (s.span ≤ s.uoff + 1 → exec .hIe s = raise .structuralHeaderError s) ∧
    (s.uoff + 1 < s.span → s.ud? s.uoff = some id → s.ud? (s.uoff + 1) = some n →
      (id = 0x24 → exec .hIe s = exec (.hIeNss n) s) ∧
      (id ≠ 0x24 → exec .hIe s = exec (.hIeOther id n) s) ∧
      (s.span < s.uoff + 2 + n.toNat → exec .hIe s = raise .structuralHeaderError s) ∧
      (s.uoff + 2 + n.toNat ≤ s.span → exec .hIe s = .next { s with
        nst := s.nst || id == 0x24, uoff := s.uoff + 2 + n.toNat,
        phase := if s.uoff + 2 + n.toNat < s.span then .udhIe else .udhPad }))

/-- R182: H.PAD. -/
def Obligations.PaddingIsComputedFromTheSpan : Prop :=
  ∀ s : State, ∃ p : BitVec 3,
    p.toNat = (if (s.span * 8) % 7 ≠ 0 then 7 - (s.span * 8) % 7 else 0) ∧
    exec .hPad s = .next { s with pad := p, phase := .dispatch }

/-- R183: header and padding together are whole septets, the least number that covers the header. -/
def Obligations.PaddingAlignsThePayload : Prop :=
  ∀ span : Nat, (8 * span + padFor span) % 7 = 0 ∧ padFor span ≤ 6 ∧
    (8 * span + padFor span) / 7 = (8 * span + 6) / 7 ∧ padFor span = (7 - span % 7) % 7

/-! ## Unit D -/

/-- R226: D.SEL, the tests in their order. -/
def Obligations.DcsSelectsThePayloadMode : Prop :=
  ∀ s : State,
    (s.dcs &&& 0x04 ≠ 0 → exec .dSel s = .next { s with phase := .pay8 }) ∧
    (s.dcs &&& 0x04 = 0 → s.dcs &&& 0x0C = 0x08 → exec .dSel s = .next { s with phase := .payU }) ∧
    (s.dcs &&& 0x04 = 0 → s.dcs &&& 0x0C ≠ 0x08 → exec .dSel s = .next { s with
      cap := max 0 (s.udl.toNat - s.span), bitpos := s.pad.toNat, cnt := 0, esc := false, phase := .pay7 })

/-- R235, R241: D.OCT8 on the octet at the cursor, with the default WEST8, which defines every octet (log 7). The cursor is
`bitpos` by log 10. -/
def Obligations.EightBitStepConvertsOneOctet : Prop :=
  ∀ (s : State) (b : Byte), s.bitpos < s.payLen → s.pay? s.bitpos = some b →
    ∃ c, Config.tables.west8 b = some c ∧ exec .dOct8 s = .next (payloadStep c false 1 s)

/-- R237, R241: D.UCS2 on the octets at the cursor: a left-over octet, a plain unit, a surrogate pair, an unpaired
surrogate. The cursor is `bitpos` by log 10. -/
def Obligations.Ucs2StepConvertsOneUnit : Prop :=
  ∀ s : State,
    (s.bitpos + 1 = s.payLen → exec .dUcs2 s = .next (payloadStep 0xFFFD true 1 s)) ∧
    ∀ b0 b1, s.bitpos + 1 < s.payLen → s.pay? s.bitpos = some b0 → s.pay? (s.bitpos + 1) = some b1 →
      let u := 256 * b0.toNat + b1.toNat
      (u < 0xD800 ∨ 0xDFFF < u → exec .dUcs2 s = .next (payloadStep (BitVec.ofNat 21 u) false 2 s)) ∧
      (0xDC00 ≤ u ∧ u ≤ 0xDFFF → exec .dUcs2 s = .next (payloadStep 0xFFFD true 2 s)) ∧
      (0xD800 ≤ u ∧ u ≤ 0xDBFF →
        (s.payLen ≤ s.bitpos + 3 → exec .dUcs2 s = .next (payloadStep 0xFFFD true 2 s)) ∧
        ∀ b2 b3, s.bitpos + 3 < s.payLen → s.pay? (s.bitpos + 2) = some b2 → s.pay? (s.bitpos + 3) = some b3 →
          let u2 := 256 * b2.toNat + b3.toNat
          (0xDC00 ≤ u2 ∧ u2 ≤ 0xDFFF → exec .dUcs2 s =
            .next (payloadStep (BitVec.ofNat 21 (0x10000 + (u - 0xD800) * 1024 + (u2 - 0xDC00))) false 4 s)) ∧
          (u2 < 0xDC00 ∨ 0xDFFF < u2 → exec .dUcs2 s = .next (payloadStep 0xFFFD true 2 s)))

/-- R230: D.GSM7, from where D.SEL leaves `U` and `G`, gives the text `G7Decode(Unpack(B, pad, some cap), nst)` and changes
nothing but text, flag, the two units' cursors and the end of the decode. -/
def Obligations.SeptetPayloadIsDecodedWhole : Prop :=
  ∀ (s : State) (B : List Byte), s.port = none → s.capValid = true →
    s.bitpos = s.pad.toNat → s.cnt = 0 → s.esc = false →
    B.length = s.payLen → (∀ i < s.payLen, s.pay? i = B[i]?) →
    let r := g7Decode Config.tables ((unpack B s.pad (some s.cap)).map portValue) s.nst
    ∃ t, exec .dGsm7 s = .next t ∧
      t = { s with txt := s.txt ++ r.1, fb := s.fb || r.2, phase := .done, done := true,
                   bitpos := t.bitpos, cnt := t.cnt, esc := t.esc }

/-! ## Unit U -/

/-- R132: U.INIT. -/
def Obligations.UnpackerStartsAfterThePadding : Prop :=
  ∀ s : State, exec .uInit s = .next { s with bitpos := s.pad.toNat, cnt := 0 }

/-- R133, R134: U.NEXT takes seven stream bits, the first the least significant, when the stop rule allows it, and nothing
otherwise. The septet is delivered on `port` by log 11, and log 20 says what an exhausted `U` does. -/
def Obligations.UnpackerTakesSevenBits : Prop :=
  ∀ s : State, s.UserDataReadable → s.span ≤ s.udn →
    (s.bitpos + 7 ≤ 8 * s.payLen → s.capValid = false ∨ s.cnt < s.cap →
      ∃ v : Septet,
        exec .uNext s = .next { s with bitpos := s.bitpos + 7, cnt := s.cnt + 1, port := some (v.setWidth 8) } ∧
        ∀ j < 7, ∀ b, s.pay? ((s.bitpos + j) / 8) = some b → v.getLsbD j = b.getLsbD ((s.bitpos + j) % 8)) ∧
    (8 * s.payLen < s.bitpos + 7 ∨ (s.capValid = true ∧ s.cap ≤ s.cnt) → exec .uNext s = .next s)

/-- R138: the byte-level form of a septet, by shifts. -/
def Obligations.SeptetByShifts : Prop :=
  ∀ (b0 b1 : Byte) (t : Nat), t < 8 →
    (t ≤ 1 → (septetOf (pairBit b0 b1 t)).toNat = (b0.toNat >>> t) &&& 0x7F) ∧
    (2 ≤ t → (septetOf (pairBit b0 b1 t)).toNat = ((b0.toNat >>> t) ||| (b1.toNat <<< (8 - t))) &&& 0x7F)

/-- R137: `Unpack` depends on the stream bits from the padding to its last septet, and on no other. -/
def Obligations.UnpackIgnoresPaddingAndTail : Prop :=
  ∀ (B B' : List Byte) (p : BitVec 3) (cap : Option Nat), B.length = B'.length →
    (∀ i, p.toNat ≤ i → i < p.toNat + 7 * unpackCount B.length p.toNat cap → bitAt B i = bitAt B' i) →
    unpack B p cap = unpack B' p cap

/-- R143: unpacking what the reference packer wrote gives the septets back, for every padding and length. -/
def Obligations.UnpackUndoesPack : Prop :=
  ∀ (S : List Septet) (p : BitVec 3), unpack (pack S p) p (some S.length) = S

/-- R143: packing what was unpacked gives the byte sequence back in every stream bit from the padding to the end of the
last whole group. -/
def Obligations.PackUndoesUnpackUpToTheTail : Prop :=
  ∀ (B : List Byte) (p : BitVec 3) (i : Nat), p.toNat ≤ i → i < p.toNat + 7 * unpackCount B.length p.toNat none →
    bitAt (pack (unpack B p none) p) i = bitAt B i

/-! ## Unit G -/

/-- R41, R43: the tables the machine is configured with satisfy what the document fixes of them. -/
def Obligations.ConfiguredTablesAreAdmissible : Prop := Config.tables.Admissible

/-- R151, R152, R153: G.INIT, G.END, G.ESC. What becomes of the model's `port` is left open (log 11). -/
def Obligations.EscapeStateAndSentinel : Prop :=
  ∀ s : State,
    (∃ t, exec .gInit s = .next t ∧ t = { s with esc := false, port := t.port }) ∧
    (∃ t, exec .gEnd s = .next t ∧ t = { s with phase := .done, done := true, port := t.port }) ∧
    (∃ t, exec .gEsc s = .next t ∧ t = { s with esc := true, port := t.port })

/-- R154: G.CHR, on the 8-bit port. What becomes of the model's `port` is left open (log 11). -/
def Obligations.BasicCharacterIsEmitted : Prop :=
  ∀ (s : State) (v : Byte), (Instr.gChr v).wellFormed = true →
    ∃ t, exec (.gChr v) s = .next t ∧
      (v.toNat ≤ 127 → t = { s with txt := s.txt ++ [Config.tables.basic (v.setWidth 7)], port := t.port }) ∧
      (127 < v.toNat → t = { s with txt := s.txt ++ [0x3F], fb := true, port := t.port })

/-- R155: G.XCHR, on the 8-bit port. What becomes of the model's `port` is left open (log 11). -/
def Obligations.EscapedCharacterIsEmitted : Prop :=
  ∀ (s : State) (v : Byte), ∃ t, exec (.gXchr v) s = .next t ∧
    (∀ c, s.nst = true → Config.tables.nst v = some c →
      t = { s with txt := s.txt ++ [c], esc := false, port := t.port }) ∧
    (s.nst = false ∨ Config.tables.nst v = none →
      (v.toNat ≤ 127 →
        t = { s with txt := s.txt ++ [Config.tables.basic (v.setWidth 7)], esc := false, port := t.port }) ∧
      (127 < v.toNat → t = { s with txt := s.txt ++ [0x3F], fb := true, esc := false, port := t.port }))

/-- R98: a value waiting at `G` is run as the one operation that (esc, v) selects. That a step takes it from `port` is
log 11. -/
def Obligations.EscapeStateAndValueSelect : Prop :=
  ∀ (s : State) (v : Byte), s.phase = .pay7 → s.resetIn = false → s.port = some v →
    (s.esc = false → v = 0x00 → step s = exec .gEnd (ignoreStart s)) ∧
    (s.esc = false → v = 0x1B → step s = exec .gEsc (ignoreStart s)) ∧
    (s.esc = false → v ≠ 0x00 → v ≠ 0x1B → step s = exec (.gChr v) (ignoreStart s)) ∧
    (s.esc = true → step s = exec (.gXchr v) (ignoreStart s))

/-- R165: the operations of `G` on a sequence of values compute `G7Decode`'s recursion from any state of `G`. -/
def Obligations.FeedingValuesIsTheDecoderFunction : Prop :=
  ∀ (S : List Byte) (s : State), s.phase = .pay7 →
    ∃ t, feed S s = .next t ∧ (t.txt, t.fb) = g7Go Config.tables s.nst S s.esc s.txt s.fb

/-- R156: when `U` is exhausted the decode ends, a pending escape emits nothing and raises nothing. -/
def Obligations.ExhaustionEndsTheText : Prop :=
  ∀ s : State, s.phase = .pay7 → s.resetIn = false → s.port = none →
    8 * s.payLen < s.bitpos + 7 ∨ (s.capValid = true ∧ s.cap ≤ s.cnt) →
    step s = .next { s with phase := .done, done := true, startIn := false }

/-- R159, R160, R117: an escaped 0x00 or 0x1B is a table index and the prefix applies to it alone; true for every
configuration, so it rests on no table entry. -/
def Obligations.EscapedSpecialValuesAreIndices : Prop :=
  ∀ (tb : Tables) (useNst : Bool) (v : Byte) (r : List Byte), v = 0x00 ∨ v = 0x1B →
    (g7Decode tb (0x1B :: v :: r) useNst).1 =
      (match (if useNst then tb.nst v else none) with
        | some c => c
        | none   => tb.basic (v.setWidth 7)) :: (g7Decode tb r useNst).1 ∧
    (g7Decode tb (0x1B :: v :: r) useNst).2 = (g7Decode tb r useNst).2

/-- R166, R167: the text is never longer than the sequence, and without the national table its contents do not
matter. -/
def Obligations.DecoderTextBoundAndTableUse : Prop :=
  ∀ (tb : Tables) (S : List Byte),
    (∀ useNst, (g7Decode tb S useNst).1.length ≤ S.length) ∧
    ∀ nst', g7Decode { tb with nst := nst' } S false = g7Decode tb S false

/-! ## The functions of the parser and the scanner -/

/-- R211, R213: which strings have octets (R200) and what they are (R63, the first character the high nibble), and the
closed form of the parse: it fails where there are none or too few of them. -/
def Obligations.ParseClosedForm : Prop :=
  ∀ C : List Byte,
    ((∃ O, octetsOf C = some O) ↔ C.length % 2 = 0 ∧ ∀ c ∈ C, hexVal c ≠ none) ∧
    (octetsOf C = none → parsePdu C = none) ∧
    ∀ O, octetsOf C = some O →
      C.length = 2 * O.length ∧
      (∀ (j : Nat) (o : Byte), O[j]? = some o →
        ∃ c d x y, C[2 * j]? = some c ∧ C[2 * j + 1]? = some d ∧ hexVal c = some x ∧ hexVal d = some y ∧
          o.toNat = 16 * x + y) ∧
      let n := (O.getD 0 0).toNat
      let h := ((O.getD (n + 2) 0).toNat + 1) / 2
      (O.length < n + 14 + h → parsePdu C = none) ∧
      (n + 14 + h ≤ O.length → parsePdu C = some
        { hp := (O.getD (n + 1) 0).getLsbD 6, dcs := O.getD (n + 5 + h) 0, udl := O.getD (n + 13 + h) 0,
          ud := O.drop (n + 14 + h) })

/-- R185, R184: a successful walk lands exactly: the element sizes sum to the header length, and `nst` says whether an
element has identifier 0x24. -/
def Obligations.ElementsFillTheHeader : Prop :=
  ∀ (UD : List Byte) (h : HeaderScan), scanUdh UD = some h →
    ((elements UD).map fun e => 2 + e.2.length).sum = h.thl.toNat ∧
    h.nst = (elements UD).any fun e => e.1 == 0x24

/-- R190: the scan looks at the header only. -/
def Obligations.ScanIgnoresThePayload : Prop :=
  ∀ (t : Byte) (h r r' : List Byte), h.length = t.toNat → scanUdh (t :: h ++ r) = scanUdh (t :: h ++ r')

/-! ## The whole decode -/

/-- R238: DECODE from IDLE or DONE always reaches DONE, its result is the function of the character string, and the input
is as before. That it does so where a reset event waits too, which it drops, is the model's choice (log 15). -/
def Obligations.DecodeIsTheFunctionOfTheString : Prop :=
  ∀ s : State, s.busy = false →
    ∃ t, exec .wholeDecode s = .next t ∧ t.phase = .done ∧ t.done = true ∧
      t.result = decodePdu Config.tables s.chars ∧ SameInput s t

/-- R239, R306: a start event and the steps after it do what DECODE does, within the step bound; that DECODE is one
operation while `step` takes the phases one at a time is log 15. -/
def Obligations.StepsFromStartReachTheDecode : Prop :=
  ∀ s : State, s.busy = false → s.resetIn = false → s.startIn = true →
    ∃ t, Host.Core.run Sys2Proof.core (4 * s.N + 201) s = .next t ∧ exec .wholeDecode s = .next t

/-- R286: the result depends on the string alone, not on what the block did before. Where a reset event waits: log 15. -/
def Obligations.NoStateCrossesDecodes : Prop :=
  ∀ s s' : State, s.busy = false → s'.busy = false → s.N = s'.N → (∀ i < s.N, s.chr i = s'.chr i) →
    ∃ t t', exec .wholeDecode s = .next t ∧ exec .wholeDecode s' = .next t' ∧ t.result = t'.result

/-- R258: with the default WEST8 (log 7) a substitution is noted in UCS-2 mode only. -/
def Obligations.FallbackOnlyInUcs2 : Prop :=
  ∀ C : List Byte, (decodePdu Config.tables C).fb = true →
    ∃ f, parsePdu C = some f ∧ payloadMode f.dcs = .ucs2

/-! ## Steps, runs and frames -/

/-- R23, R240: a step runs the operation its phase's word decodes to; in PAY_7 U.NEXT fetches the septet first. The order
of a step is logs 11, 13 and 14. -/
def Obligations.StepRunsTheDecodedOperation : Prop :=
  ∀ (s : State) (i : Instr), s.resetIn = false → s.busy = true →
    (s.phase ≠ .pay7 → decode (placeOf s.phase) (wordAt s) = .ok i → step s = exec i (ignoreStart s)) ∧
    (s.phase = .pay7 → ∀ v, s.port = some v → decode .septet (septWord s.esc v) = .ok i →
      step s = exec i (ignoreStart s)) ∧
    (s.phase = .pay7 → s.port = none → unpackEnabled s = true →
      ∀ t v, exec .uNext (ignoreStart s) = .next t → t.port = some v → decode .septet (septWord t.esc v) = .ok i →
        step s = exec i t)

/-- The invariant holds right after reset. -/
def Obligations.ResetMeetsTheInvariant : Prop := State.reset.Inv

/-- R107, R37, R23: every step keeps the invariant: canonical memory, `done` the level of DONE, every counter inside its
width, and what each phase relies on. -/
def Obligations.StepKeepsTheInvariant : Prop :=
  ∀ s t : State, s.Inv → step s = .next t → t.Inv

/-- R60, R13: on a run no primitive is applied outside its domain: a step always answers a next state. -/
def Obligations.NoReadLeavesItsDomain : Prop :=
  ∀ s : State, s.Inv → ∃ t, step s = .next t

/-- R296, R81 (a): the host's operations keep the invariant, and what the host writes is what `Chr` then reads. The host's
writes are open exactly when no decode runs and no start waits: R297, logs 22 and 28. -/
def Obligations.HostKeepsTheInvariant : Prop :=
  ∀ s : State, s.Inv →
    (hostStart s).Inv ∧ (hostReset s).Inv ∧
    (∀ cs t, hostLoad cs s = some t → t.Inv ∧ t.chars = cs) ∧
    (∀ a b t, hostWriteChar a b s = some t →
      t.Inv ∧ t.chr a = b ∧ (∀ x, x ≠ a → t.chr x = s.chr x) ∧ t.N = s.N) ∧
    (∀ n t, hostWriteLength n s = some t → t.Inv ∧ t.N = n ∧ ∀ x, t.chr x = s.chr x) ∧
    ∀ cs a b n,
      (s.busy = false → s.startIn = false →
        (∃ t, hostLoad cs s = some t) ∧ (∃ t, hostWriteChar a b s = some t) ∧ ∃ t, hostWriteLength n s = some t) ∧
      (s.busy = true ∨ s.startIn = true →
        hostLoad cs s = none ∧ hostWriteChar a b s = none ∧ hostWriteLength n s = none)

/-- R47: while a decode runs, the text never outgrows the string's length. -/
def Obligations.TextNeverOverflows : Prop :=
  ∀ s t : State, s.Inv → s.busy = true → s.resetIn = false → step s = .next t → t.T ≤ s.N

/-- R263: an abort of a run finds nothing emitted. -/
def Obligations.AbortsArePrecise : Prop :=
  ∀ s t : State, s.Inv → s.busy = true → s.resetIn = false → step s = .next t → t.err ≠ .ok → s.txt = [] ∧ t.txt = []

/-- R46, R66: no operation writes `PDU` or `N`. -/
def Obligations.NoOperationWritesTheInput : Prop :=
  ∀ (i : Instr) (s t : State), exec i s = .next t → SameInput s t

/-- R260: which unit can raise what. -/
def Obligations.EachUnitRaisesItsOwnKind : Prop :=
  ∀ (i : Instr) (s t : State), exec i s = .next t →
    (unitOfInstr i = some .p → (t.err = s.err ∧ t.fb = s.fb) ∨ Aborted .malformedInput t) ∧
    (unitOfInstr i = some .h → (t.err = s.err ∧ t.fb = s.fb) ∨ Aborted .structuralHeaderError t) ∧
    (unitOfInstr i = some .u → t.err = s.err ∧ t.fb = s.fb) ∧
    (unitOfInstr i = some .g ∨ unitOfInstr i = some .d → t.err = s.err ∧ (s.fb = true → t.fb = true))

/-- R66, R75: the payload operations add text at the end, the others leave it, or abort and clear it. -/
def Obligations.OnlyPayloadOperationsEmit : Prop :=
  ∀ (i : Instr) (s t : State), exec i s = .next t → i ≠ .wholeDecode →
    (emitsText i = true → s.txt <+: t.txt) ∧
    (emitsText i = false → t.txt = s.txt ∨ (t.txt = [] ∧ t.phase = .done ∧ t.err ≠ .ok))

/-- R21 and R27 to R35: each register of the PDU, header and unpacker records has the one writer its rule names (H.LEN and
H.IE for `nst`); an abort, which frees them all, is left out. -/
def Obligations.EachRegisterHasItsOwnWriter : Prop :=
  ∀ (i : Instr) (s t : State), i.wellFormed = true → exec i s = .next t → t.err = .ok → i ≠ .wholeDecode →
    (i ≠ .pFlags → t.hp = s.hp) ∧ (i ≠ .pDcs → t.dcs = s.dcs) ∧ (i ≠ .pUdl → t.udl = s.udl) ∧
    (i ≠ .pUd → t.ud0 = s.ud0 ∧ t.udn = s.udn) ∧ (i ≠ .hLen → t.thl = s.thl ∧ t.span = s.span) ∧
    (i ≠ .hLen → i ≠ .hIe → (∀ n, i ≠ .hIeNss n) → t.nst = s.nst) ∧
    (i ≠ .hPad → t.pad = s.pad) ∧ (i ≠ .dSel → t.cap = s.cap)

/-! ## Encoding -/

/-- R90 to R99: decoding the word of a well-formed operation gives it back with every operand, and what a word decodes to
is well formed. The places are log 21. -/
def Obligations.DecodeAndEncodeAgree : Prop :=
  (∀ i : Instr, i.wellFormed = true → decode (encode i).1 (encode i).2 = .ok i) ∧
  ∀ p w i, decode p w = .ok i → i.wellFormed = true

/-- Words written out from the table's patterns decode to their rows; the reading of bare words is log 21. -/
def Obligations.TableWordsDecode : Prop :=
  decode .flags [0b01000000#8] = .ok .pFlags ∧ decode .udhElem [0b00100100#8, 0b00000011#8] = .ok (.hIeNss 3) ∧
  decode .mode [0b11110100#8] = .ok .dOct8 ∧ decode .mode [0b00011001#8] = .ok .dUcs2 ∧
  decode .mode [0b11110001#8] = .ok .dGsm7 ∧ decode .septet [0b00011011#8, 0b0#8] = .ok .gEsc ∧
  decode .septet [0b01000001#8, 0b1#8] = .ok (.gXchr 0x41) ∧ decode .hexChar [0b01100110#8] = .ok (.hexLower 0x66) ∧
  decodeTableWord 16 0b000011011 = some .gEsc ∧ decodeTableWord 8 0b00001000 = some .dUcs2
end

