-- ==== Sys2Proof/Laws/State.lean ====
section
/-!
SUPPORT. One lemma per field per named update of the state, true by `rfl`, so that no proof unfolds a record update; and
the views of the `PDU` buffer under the updates that leave it alone.
-/

namespace Sys2Proof.Machine

/-! `emit` -/

@[simp] theorem emit_pdu (c : CodePoint) (s : State) : (emit c s).pdu = s.pdu := rfl
@[simp] theorem emit_N (c : CodePoint) (s : State) : (emit c s).N = s.N := rfl
@[simp] theorem emit_phase (c : CodePoint) (s : State) : (emit c s).phase = s.phase := rfl
@[simp] theorem emit_pos (c : CodePoint) (s : State) : (emit c s).pos = s.pos := rfl
@[simp] theorem emit_uoff (c : CodePoint) (s : State) : (emit c s).uoff = s.uoff := rfl
@[simp] theorem emit_bitpos (c : CodePoint) (s : State) : (emit c s).bitpos = s.bitpos := rfl
@[simp] theorem emit_cnt (c : CodePoint) (s : State) : (emit c s).cnt = s.cnt := rfl
@[simp] theorem emit_hp (c : CodePoint) (s : State) : (emit c s).hp = s.hp := rfl
@[simp] theorem emit_dcs (c : CodePoint) (s : State) : (emit c s).dcs = s.dcs := rfl
@[simp] theorem emit_udl (c : CodePoint) (s : State) : (emit c s).udl = s.udl := rfl
@[simp] theorem emit_ud0 (c : CodePoint) (s : State) : (emit c s).ud0 = s.ud0 := rfl
@[simp] theorem emit_udn (c : CodePoint) (s : State) : (emit c s).udn = s.udn := rfl
@[simp] theorem emit_thl (c : CodePoint) (s : State) : (emit c s).thl = s.thl := rfl
@[simp] theorem emit_span (c : CodePoint) (s : State) : (emit c s).span = s.span := rfl
@[simp] theorem emit_nst (c : CodePoint) (s : State) : (emit c s).nst = s.nst := rfl
@[simp] theorem emit_pad (c : CodePoint) (s : State) : (emit c s).pad = s.pad := rfl
@[simp] theorem emit_cap (c : CodePoint) (s : State) : (emit c s).cap = s.cap := rfl
@[simp] theorem emit_esc (c : CodePoint) (s : State) : (emit c s).esc = s.esc := rfl
@[simp] theorem emit_txt (c : CodePoint) (s : State) : (emit c s).txt = s.txt ++ [c] := rfl
@[simp] theorem emit_done (c : CodePoint) (s : State) : (emit c s).done = s.done := rfl
@[simp] theorem emit_err (c : CodePoint) (s : State) : (emit c s).err = s.err := rfl
@[simp] theorem emit_fb (c : CodePoint) (s : State) : (emit c s).fb = s.fb := rfl
@[simp] theorem emit_capValid (c : CodePoint) (s : State) : (emit c s).capValid = s.capValid := rfl
@[simp] theorem emit_port (c : CodePoint) (s : State) : (emit c s).port = s.port := rfl
@[simp] theorem emit_startIn (c : CodePoint) (s : State) : (emit c s).startIn = s.startIn := rfl
@[simp] theorem emit_resetIn (c : CodePoint) (s : State) : (emit c s).resetIn = s.resetIn := rfl
@[simp] theorem emit_freeCtr (c : CodePoint) (s : State) : (emit c s).freeCtr = s.freeCtr := rfl
@[simp] theorem emit_M (c : CodePoint) (s : State) : (emit c s).M = s.M := rfl
@[simp] theorem emit_chr (c : CodePoint) (s : State) (i : Nat) : (emit c s).chr i = s.chr i := rfl
@[simp] theorem emit_oct (c : CodePoint) (s : State) (i : Nat) : (emit c s).oct? i = s.oct? i := rfl
@[simp] theorem emit_ud (c : CodePoint) (s : State) (i : Nat) : (emit c s).ud? i = s.ud? i := rfl
@[simp] theorem emit_payLen (c : CodePoint) (s : State) : (emit c s).payLen = s.payLen := rfl
@[simp] theorem emit_pay (c : CodePoint) (s : State) (i : Nat) : (emit c s).pay? i = s.pay? i := rfl

/-! `finish` -/

@[simp] theorem finish_pdu (s : State) : (finish s).pdu = s.pdu := rfl
@[simp] theorem finish_N (s : State) : (finish s).N = s.N := rfl
@[simp] theorem finish_phase (s : State) : (finish s).phase = .done := rfl
@[simp] theorem finish_pos (s : State) : (finish s).pos = s.pos := rfl
@[simp] theorem finish_uoff (s : State) : (finish s).uoff = s.uoff := rfl
@[simp] theorem finish_bitpos (s : State) : (finish s).bitpos = s.bitpos := rfl
@[simp] theorem finish_cnt (s : State) : (finish s).cnt = s.cnt := rfl
@[simp] theorem finish_hp (s : State) : (finish s).hp = s.hp := rfl
@[simp] theorem finish_dcs (s : State) : (finish s).dcs = s.dcs := rfl
@[simp] theorem finish_udl (s : State) : (finish s).udl = s.udl := rfl
@[simp] theorem finish_ud0 (s : State) : (finish s).ud0 = s.ud0 := rfl
@[simp] theorem finish_udn (s : State) : (finish s).udn = s.udn := rfl
@[simp] theorem finish_thl (s : State) : (finish s).thl = s.thl := rfl
@[simp] theorem finish_span (s : State) : (finish s).span = s.span := rfl
@[simp] theorem finish_nst (s : State) : (finish s).nst = s.nst := rfl
@[simp] theorem finish_pad (s : State) : (finish s).pad = s.pad := rfl
@[simp] theorem finish_cap (s : State) : (finish s).cap = s.cap := rfl
@[simp] theorem finish_esc (s : State) : (finish s).esc = s.esc := rfl
@[simp] theorem finish_txt (s : State) : (finish s).txt = s.txt := rfl
@[simp] theorem finish_done (s : State) : (finish s).done = true := rfl
@[simp] theorem finish_err (s : State) : (finish s).err = s.err := rfl
@[simp] theorem finish_fb (s : State) : (finish s).fb = s.fb := rfl
@[simp] theorem finish_capValid (s : State) : (finish s).capValid = s.capValid := rfl
@[simp] theorem finish_port (s : State) : (finish s).port = s.port := rfl
@[simp] theorem finish_startIn (s : State) : (finish s).startIn = s.startIn := rfl
@[simp] theorem finish_resetIn (s : State) : (finish s).resetIn = s.resetIn := rfl
@[simp] theorem finish_freeCtr (s : State) : (finish s).freeCtr = s.freeCtr := rfl
@[simp] theorem finish_M (s : State) : (finish s).M = s.M := rfl
@[simp] theorem finish_chr (s : State) (i : Nat) : (finish s).chr i = s.chr i := rfl
@[simp] theorem finish_oct (s : State) (i : Nat) : (finish s).oct? i = s.oct? i := rfl
@[simp] theorem finish_ud (s : State) (i : Nat) : (finish s).ud? i = s.ud? i := rfl
@[simp] theorem finish_payLen (s : State) : (finish s).payLen = s.payLen := rfl
@[simp] theorem finish_pay (s : State) (i : Nat) : (finish s).pay? i = s.pay? i := rfl

/-! `skip` -/

@[simp] theorem skip_pdu (k : Nat) (s : State) : (skip k s).pdu = s.pdu := rfl
@[simp] theorem skip_N (k : Nat) (s : State) : (skip k s).N = s.N := rfl
@[simp] theorem skip_phase (k : Nat) (s : State) : (skip k s).phase = s.phase := rfl
@[simp] theorem skip_pos (k : Nat) (s : State) : (skip k s).pos = s.pos + k := rfl
@[simp] theorem skip_uoff (k : Nat) (s : State) : (skip k s).uoff = s.uoff := rfl
@[simp] theorem skip_bitpos (k : Nat) (s : State) : (skip k s).bitpos = s.bitpos := rfl
@[simp] theorem skip_cnt (k : Nat) (s : State) : (skip k s).cnt = s.cnt := rfl
@[simp] theorem skip_hp (k : Nat) (s : State) : (skip k s).hp = s.hp := rfl
@[simp] theorem skip_dcs (k : Nat) (s : State) : (skip k s).dcs = s.dcs := rfl
@[simp] theorem skip_udl (k : Nat) (s : State) : (skip k s).udl = s.udl := rfl
@[simp] theorem skip_ud0 (k : Nat) (s : State) : (skip k s).ud0 = s.ud0 := rfl
@[simp] theorem skip_udn (k : Nat) (s : State) : (skip k s).udn = s.udn := rfl
@[simp] theorem skip_thl (k : Nat) (s : State) : (skip k s).thl = s.thl := rfl
@[simp] theorem skip_span (k : Nat) (s : State) : (skip k s).span = s.span := rfl
@[simp] theorem skip_nst (k : Nat) (s : State) : (skip k s).nst = s.nst := rfl
@[simp] theorem skip_pad (k : Nat) (s : State) : (skip k s).pad = s.pad := rfl
@[simp] theorem skip_cap (k : Nat) (s : State) : (skip k s).cap = s.cap := rfl
@[simp] theorem skip_esc (k : Nat) (s : State) : (skip k s).esc = s.esc := rfl
@[simp] theorem skip_txt (k : Nat) (s : State) : (skip k s).txt = s.txt := rfl
@[simp] theorem skip_done (k : Nat) (s : State) : (skip k s).done = s.done := rfl
@[simp] theorem skip_err (k : Nat) (s : State) : (skip k s).err = s.err := rfl
@[simp] theorem skip_fb (k : Nat) (s : State) : (skip k s).fb = s.fb := rfl
@[simp] theorem skip_capValid (k : Nat) (s : State) : (skip k s).capValid = s.capValid := rfl
@[simp] theorem skip_port (k : Nat) (s : State) : (skip k s).port = s.port := rfl
@[simp] theorem skip_startIn (k : Nat) (s : State) : (skip k s).startIn = s.startIn := rfl
@[simp] theorem skip_resetIn (k : Nat) (s : State) : (skip k s).resetIn = s.resetIn := rfl
@[simp] theorem skip_freeCtr (k : Nat) (s : State) : (skip k s).freeCtr = s.freeCtr := rfl
@[simp] theorem skip_M (k : Nat) (s : State) : (skip k s).M = s.M := rfl
@[simp] theorem skip_chr (k : Nat) (s : State) (i : Nat) : (skip k s).chr i = s.chr i := rfl
@[simp] theorem skip_oct (k : Nat) (s : State) (i : Nat) : (skip k s).oct? i = s.oct? i := rfl
@[simp] theorem skip_ud (k : Nat) (s : State) (i : Nat) : (skip k s).ud? i = s.ud? i := rfl
@[simp] theorem skip_payLen (k : Nat) (s : State) : (skip k s).payLen = s.payLen := rfl
@[simp] theorem skip_pay (k : Nat) (s : State) (i : Nat) : (skip k s).pay? i = s.pay? i := rfl

/-! `goto` -/

@[simp] theorem goto_pdu (p : Phase) (s : State) : (goto p s).pdu = s.pdu := rfl
@[simp] theorem goto_N (p : Phase) (s : State) : (goto p s).N = s.N := rfl
@[simp] theorem goto_phase (p : Phase) (s : State) : (goto p s).phase = p := rfl
@[simp] theorem goto_pos (p : Phase) (s : State) : (goto p s).pos = s.pos := rfl
@[simp] theorem goto_uoff (p : Phase) (s : State) : (goto p s).uoff = s.uoff := rfl
@[simp] theorem goto_bitpos (p : Phase) (s : State) : (goto p s).bitpos = s.bitpos := rfl
@[simp] theorem goto_cnt (p : Phase) (s : State) : (goto p s).cnt = s.cnt := rfl
@[simp] theorem goto_hp (p : Phase) (s : State) : (goto p s).hp = s.hp := rfl
@[simp] theorem goto_dcs (p : Phase) (s : State) : (goto p s).dcs = s.dcs := rfl
@[simp] theorem goto_udl (p : Phase) (s : State) : (goto p s).udl = s.udl := rfl
@[simp] theorem goto_ud0 (p : Phase) (s : State) : (goto p s).ud0 = s.ud0 := rfl
@[simp] theorem goto_udn (p : Phase) (s : State) : (goto p s).udn = s.udn := rfl
@[simp] theorem goto_thl (p : Phase) (s : State) : (goto p s).thl = s.thl := rfl
@[simp] theorem goto_span (p : Phase) (s : State) : (goto p s).span = s.span := rfl
@[simp] theorem goto_nst (p : Phase) (s : State) : (goto p s).nst = s.nst := rfl
@[simp] theorem goto_pad (p : Phase) (s : State) : (goto p s).pad = s.pad := rfl
@[simp] theorem goto_cap (p : Phase) (s : State) : (goto p s).cap = s.cap := rfl
@[simp] theorem goto_esc (p : Phase) (s : State) : (goto p s).esc = s.esc := rfl
@[simp] theorem goto_txt (p : Phase) (s : State) : (goto p s).txt = s.txt := rfl
@[simp] theorem goto_done (p : Phase) (s : State) : (goto p s).done = s.done := rfl
@[simp] theorem goto_err (p : Phase) (s : State) : (goto p s).err = s.err := rfl
@[simp] theorem goto_fb (p : Phase) (s : State) : (goto p s).fb = s.fb := rfl
@[simp] theorem goto_capValid (p : Phase) (s : State) : (goto p s).capValid = s.capValid := rfl
@[simp] theorem goto_port (p : Phase) (s : State) : (goto p s).port = s.port := rfl
@[simp] theorem goto_startIn (p : Phase) (s : State) : (goto p s).startIn = s.startIn := rfl
@[simp] theorem goto_resetIn (p : Phase) (s : State) : (goto p s).resetIn = s.resetIn := rfl
@[simp] theorem goto_freeCtr (p : Phase) (s : State) : (goto p s).freeCtr = s.freeCtr := rfl
@[simp] theorem goto_M (p : Phase) (s : State) : (goto p s).M = s.M := rfl
@[simp] theorem goto_chr (p : Phase) (s : State) (i : Nat) : (goto p s).chr i = s.chr i := rfl
@[simp] theorem goto_oct (p : Phase) (s : State) (i : Nat) : (goto p s).oct? i = s.oct? i := rfl
@[simp] theorem goto_ud (p : Phase) (s : State) (i : Nat) : (goto p s).ud? i = s.ud? i := rfl
@[simp] theorem goto_payLen (p : Phase) (s : State) : (goto p s).payLen = s.payLen := rfl
@[simp] theorem goto_pay (p : Phase) (s : State) (i : Nat) : (goto p s).pay? i = s.pay? i := rfl

/-! `noteFallback` -/

@[simp] theorem noteFallback_pdu (s : State) : (noteFallback s).pdu = s.pdu := rfl
@[simp] theorem noteFallback_N (s : State) : (noteFallback s).N = s.N := rfl
@[simp] theorem noteFallback_phase (s : State) : (noteFallback s).phase = s.phase := rfl
@[simp] theorem noteFallback_pos (s : State) : (noteFallback s).pos = s.pos := rfl
@[simp] theorem noteFallback_uoff (s : State) : (noteFallback s).uoff = s.uoff := rfl
@[simp] theorem noteFallback_bitpos (s : State) : (noteFallback s).bitpos = s.bitpos := rfl
@[simp] theorem noteFallback_cnt (s : State) : (noteFallback s).cnt = s.cnt := rfl
@[simp] theorem noteFallback_hp (s : State) : (noteFallback s).hp = s.hp := rfl
@[simp] theorem noteFallback_dcs (s : State) : (noteFallback s).dcs = s.dcs := rfl
@[simp] theorem noteFallback_udl (s : State) : (noteFallback s).udl = s.udl := rfl
@[simp] theorem noteFallback_ud0 (s : State) : (noteFallback s).ud0 = s.ud0 := rfl
@[simp] theorem noteFallback_udn (s : State) : (noteFallback s).udn = s.udn := rfl
@[simp] theorem noteFallback_thl (s : State) : (noteFallback s).thl = s.thl := rfl
@[simp] theorem noteFallback_span (s : State) : (noteFallback s).span = s.span := rfl
@[simp] theorem noteFallback_nst (s : State) : (noteFallback s).nst = s.nst := rfl
@[simp] theorem noteFallback_pad (s : State) : (noteFallback s).pad = s.pad := rfl
@[simp] theorem noteFallback_cap (s : State) : (noteFallback s).cap = s.cap := rfl
@[simp] theorem noteFallback_esc (s : State) : (noteFallback s).esc = s.esc := rfl
@[simp] theorem noteFallback_txt (s : State) : (noteFallback s).txt = s.txt := rfl
@[simp] theorem noteFallback_done (s : State) : (noteFallback s).done = s.done := rfl
@[simp] theorem noteFallback_err (s : State) : (noteFallback s).err = s.err := rfl
@[simp] theorem noteFallback_fb (s : State) : (noteFallback s).fb = true := rfl
@[simp] theorem noteFallback_capValid (s : State) : (noteFallback s).capValid = s.capValid := rfl
@[simp] theorem noteFallback_port (s : State) : (noteFallback s).port = s.port := rfl
@[simp] theorem noteFallback_startIn (s : State) : (noteFallback s).startIn = s.startIn := rfl
@[simp] theorem noteFallback_resetIn (s : State) : (noteFallback s).resetIn = s.resetIn := rfl
@[simp] theorem noteFallback_freeCtr (s : State) : (noteFallback s).freeCtr = s.freeCtr := rfl
@[simp] theorem noteFallback_M (s : State) : (noteFallback s).M = s.M := rfl
@[simp] theorem noteFallback_chr (s : State) (i : Nat) : (noteFallback s).chr i = s.chr i := rfl
@[simp] theorem noteFallback_oct (s : State) (i : Nat) : (noteFallback s).oct? i = s.oct? i := rfl
@[simp] theorem noteFallback_ud (s : State) (i : Nat) : (noteFallback s).ud? i = s.ud? i := rfl
@[simp] theorem noteFallback_payLen (s : State) : (noteFallback s).payLen = s.payLen := rfl
@[simp] theorem noteFallback_pay (s : State) (i : Nat) : (noteFallback s).pay? i = s.pay? i := rfl

/-! `substitute` -/

@[simp] theorem substitute_pdu (c : CodePoint) (s : State) : (substitute c s).pdu = s.pdu := rfl
@[simp] theorem substitute_N (c : CodePoint) (s : State) : (substitute c s).N = s.N := rfl
@[simp] theorem substitute_phase (c : CodePoint) (s : State) : (substitute c s).phase = s.phase := rfl
@[simp] theorem substitute_pos (c : CodePoint) (s : State) : (substitute c s).pos = s.pos := rfl
@[simp] theorem substitute_uoff (c : CodePoint) (s : State) : (substitute c s).uoff = s.uoff := rfl
@[simp] theorem substitute_bitpos (c : CodePoint) (s : State) : (substitute c s).bitpos = s.bitpos := rfl
@[simp] theorem substitute_cnt (c : CodePoint) (s : State) : (substitute c s).cnt = s.cnt := rfl
@[simp] theorem substitute_hp (c : CodePoint) (s : State) : (substitute c s).hp = s.hp := rfl
@[simp] theorem substitute_dcs (c : CodePoint) (s : State) : (substitute c s).dcs = s.dcs := rfl
@[simp] theorem substitute_udl (c : CodePoint) (s : State) : (substitute c s).udl = s.udl := rfl
@[simp] theorem substitute_ud0 (c : CodePoint) (s : State) : (substitute c s).ud0 = s.ud0 := rfl
@[simp] theorem substitute_udn (c : CodePoint) (s : State) : (substitute c s).udn = s.udn := rfl
@[simp] theorem substitute_thl (c : CodePoint) (s : State) : (substitute c s).thl = s.thl := rfl
@[simp] theorem substitute_span (c : CodePoint) (s : State) : (substitute c s).span = s.span := rfl
@[simp] theorem substitute_nst (c : CodePoint) (s : State) : (substitute c s).nst = s.nst := rfl
@[simp] theorem substitute_pad (c : CodePoint) (s : State) : (substitute c s).pad = s.pad := rfl
@[simp] theorem substitute_cap (c : CodePoint) (s : State) : (substitute c s).cap = s.cap := rfl
@[simp] theorem substitute_esc (c : CodePoint) (s : State) : (substitute c s).esc = s.esc := rfl
@[simp] theorem substitute_txt (c : CodePoint) (s : State) : (substitute c s).txt = s.txt ++ [c] := rfl
@[simp] theorem substitute_done (c : CodePoint) (s : State) : (substitute c s).done = s.done := rfl
@[simp] theorem substitute_err (c : CodePoint) (s : State) : (substitute c s).err = s.err := rfl
@[simp] theorem substitute_fb (c : CodePoint) (s : State) : (substitute c s).fb = true := rfl
@[simp] theorem substitute_capValid (c : CodePoint) (s : State) : (substitute c s).capValid = s.capValid := rfl
@[simp] theorem substitute_port (c : CodePoint) (s : State) : (substitute c s).port = s.port := rfl
@[simp] theorem substitute_startIn (c : CodePoint) (s : State) : (substitute c s).startIn = s.startIn := rfl
@[simp] theorem substitute_resetIn (c : CodePoint) (s : State) : (substitute c s).resetIn = s.resetIn := rfl
@[simp] theorem substitute_freeCtr (c : CodePoint) (s : State) : (substitute c s).freeCtr = s.freeCtr := rfl
@[simp] theorem substitute_M (c : CodePoint) (s : State) : (substitute c s).M = s.M := rfl
@[simp] theorem substitute_chr (c : CodePoint) (s : State) (i : Nat) : (substitute c s).chr i = s.chr i := rfl
@[simp] theorem substitute_oct (c : CodePoint) (s : State) (i : Nat) : (substitute c s).oct? i = s.oct? i := rfl
@[simp] theorem substitute_ud (c : CodePoint) (s : State) (i : Nat) : (substitute c s).ud? i = s.ud? i := rfl
@[simp] theorem substitute_payLen (c : CodePoint) (s : State) : (substitute c s).payLen = s.payLen := rfl
@[simp] theorem substitute_pay (c : CodePoint) (s : State) (i : Nat) : (substitute c s).pay? i = s.pay? i := rfl

/-! `consume` -/

@[simp] theorem consume_pdu (s : State) : (consume s).pdu = s.pdu := rfl
@[simp] theorem consume_N (s : State) : (consume s).N = s.N := rfl
@[simp] theorem consume_phase (s : State) : (consume s).phase = s.phase := rfl
@[simp] theorem consume_pos (s : State) : (consume s).pos = s.pos := rfl
@[simp] theorem consume_uoff (s : State) : (consume s).uoff = s.uoff := rfl
@[simp] theorem consume_bitpos (s : State) : (consume s).bitpos = s.bitpos := rfl
@[simp] theorem consume_cnt (s : State) : (consume s).cnt = s.cnt := rfl
@[simp] theorem consume_hp (s : State) : (consume s).hp = s.hp := rfl
@[simp] theorem consume_dcs (s : State) : (consume s).dcs = s.dcs := rfl
@[simp] theorem consume_udl (s : State) : (consume s).udl = s.udl := rfl
@[simp] theorem consume_ud0 (s : State) : (consume s).ud0 = s.ud0 := rfl
@[simp] theorem consume_udn (s : State) : (consume s).udn = s.udn := rfl
@[simp] theorem consume_thl (s : State) : (consume s).thl = s.thl := rfl
@[simp] theorem consume_span (s : State) : (consume s).span = s.span := rfl
@[simp] theorem consume_nst (s : State) : (consume s).nst = s.nst := rfl
@[simp] theorem consume_pad (s : State) : (consume s).pad = s.pad := rfl
@[simp] theorem consume_cap (s : State) : (consume s).cap = s.cap := rfl
@[simp] theorem consume_esc (s : State) : (consume s).esc = s.esc := rfl
@[simp] theorem consume_txt (s : State) : (consume s).txt = s.txt := rfl
@[simp] theorem consume_done (s : State) : (consume s).done = s.done := rfl
@[simp] theorem consume_err (s : State) : (consume s).err = s.err := rfl
@[simp] theorem consume_fb (s : State) : (consume s).fb = s.fb := rfl
@[simp] theorem consume_capValid (s : State) : (consume s).capValid = s.capValid := rfl
@[simp] theorem consume_port (s : State) : (consume s).port = none := rfl
@[simp] theorem consume_startIn (s : State) : (consume s).startIn = s.startIn := rfl
@[simp] theorem consume_resetIn (s : State) : (consume s).resetIn = s.resetIn := rfl
@[simp] theorem consume_freeCtr (s : State) : (consume s).freeCtr = s.freeCtr := rfl
@[simp] theorem consume_M (s : State) : (consume s).M = s.M := rfl
@[simp] theorem consume_chr (s : State) (i : Nat) : (consume s).chr i = s.chr i := rfl
@[simp] theorem consume_oct (s : State) (i : Nat) : (consume s).oct? i = s.oct? i := rfl
@[simp] theorem consume_ud (s : State) (i : Nat) : (consume s).ud? i = s.ud? i := rfl
@[simp] theorem consume_payLen (s : State) : (consume s).payLen = s.payLen := rfl
@[simp] theorem consume_pay (s : State) (i : Nat) : (consume s).pay? i = s.pay? i := rfl

/-! `decoderInit` -/

@[simp] theorem decoderInit_pdu (s : State) : (decoderInit s).pdu = s.pdu := rfl
@[simp] theorem decoderInit_N (s : State) : (decoderInit s).N = s.N := rfl
@[simp] theorem decoderInit_phase (s : State) : (decoderInit s).phase = s.phase := rfl
@[simp] theorem decoderInit_pos (s : State) : (decoderInit s).pos = s.pos := rfl
@[simp] theorem decoderInit_uoff (s : State) : (decoderInit s).uoff = s.uoff := rfl
@[simp] theorem decoderInit_bitpos (s : State) : (decoderInit s).bitpos = s.bitpos := rfl
@[simp] theorem decoderInit_cnt (s : State) : (decoderInit s).cnt = s.cnt := rfl
@[simp] theorem decoderInit_hp (s : State) : (decoderInit s).hp = s.hp := rfl
@[simp] theorem decoderInit_dcs (s : State) : (decoderInit s).dcs = s.dcs := rfl
@[simp] theorem decoderInit_udl (s : State) : (decoderInit s).udl = s.udl := rfl
@[simp] theorem decoderInit_ud0 (s : State) : (decoderInit s).ud0 = s.ud0 := rfl
@[simp] theorem decoderInit_udn (s : State) : (decoderInit s).udn = s.udn := rfl
@[simp] theorem decoderInit_thl (s : State) : (decoderInit s).thl = s.thl := rfl
@[simp] theorem decoderInit_span (s : State) : (decoderInit s).span = s.span := rfl
@[simp] theorem decoderInit_nst (s : State) : (decoderInit s).nst = s.nst := rfl
@[simp] theorem decoderInit_pad (s : State) : (decoderInit s).pad = s.pad := rfl
@[simp] theorem decoderInit_cap (s : State) : (decoderInit s).cap = s.cap := rfl
@[simp] theorem decoderInit_esc (s : State) : (decoderInit s).esc = false := rfl
@[simp] theorem decoderInit_txt (s : State) : (decoderInit s).txt = s.txt := rfl
@[simp] theorem decoderInit_done (s : State) : (decoderInit s).done = s.done := rfl
@[simp] theorem decoderInit_err (s : State) : (decoderInit s).err = s.err := rfl
@[simp] theorem decoderInit_fb (s : State) : (decoderInit s).fb = s.fb := rfl
@[simp] theorem decoderInit_capValid (s : State) : (decoderInit s).capValid = s.capValid := rfl
@[simp] theorem decoderInit_port (s : State) : (decoderInit s).port = s.port := rfl
@[simp] theorem decoderInit_startIn (s : State) : (decoderInit s).startIn = s.startIn := rfl
@[simp] theorem decoderInit_resetIn (s : State) : (decoderInit s).resetIn = s.resetIn := rfl
@[simp] theorem decoderInit_freeCtr (s : State) : (decoderInit s).freeCtr = s.freeCtr := rfl
@[simp] theorem decoderInit_M (s : State) : (decoderInit s).M = s.M := rfl
@[simp] theorem decoderInit_chr (s : State) (i : Nat) : (decoderInit s).chr i = s.chr i := rfl
@[simp] theorem decoderInit_oct (s : State) (i : Nat) : (decoderInit s).oct? i = s.oct? i := rfl
@[simp] theorem decoderInit_ud (s : State) (i : Nat) : (decoderInit s).ud? i = s.ud? i := rfl
@[simp] theorem decoderInit_payLen (s : State) : (decoderInit s).payLen = s.payLen := rfl
@[simp] theorem decoderInit_pay (s : State) (i : Nat) : (decoderInit s).pay? i = s.pay? i := rfl

/-! `unpackInit` -/

@[simp] theorem unpackInit_pdu (s : State) : (unpackInit s).pdu = s.pdu := rfl
@[simp] theorem unpackInit_N (s : State) : (unpackInit s).N = s.N := rfl
@[simp] theorem unpackInit_phase (s : State) : (unpackInit s).phase = s.phase := rfl
@[simp] theorem unpackInit_pos (s : State) : (unpackInit s).pos = s.pos := rfl
@[simp] theorem unpackInit_uoff (s : State) : (unpackInit s).uoff = s.uoff := rfl
@[simp] theorem unpackInit_bitpos (s : State) : (unpackInit s).bitpos = s.pad.toNat := rfl
@[simp] theorem unpackInit_cnt (s : State) : (unpackInit s).cnt = 0 := rfl
@[simp] theorem unpackInit_hp (s : State) : (unpackInit s).hp = s.hp := rfl
@[simp] theorem unpackInit_dcs (s : State) : (unpackInit s).dcs = s.dcs := rfl
@[simp] theorem unpackInit_udl (s : State) : (unpackInit s).udl = s.udl := rfl
@[simp] theorem unpackInit_ud0 (s : State) : (unpackInit s).ud0 = s.ud0 := rfl
@[simp] theorem unpackInit_udn (s : State) : (unpackInit s).udn = s.udn := rfl
@[simp] theorem unpackInit_thl (s : State) : (unpackInit s).thl = s.thl := rfl
@[simp] theorem unpackInit_span (s : State) : (unpackInit s).span = s.span := rfl
@[simp] theorem unpackInit_nst (s : State) : (unpackInit s).nst = s.nst := rfl
@[simp] theorem unpackInit_pad (s : State) : (unpackInit s).pad = s.pad := rfl
@[simp] theorem unpackInit_cap (s : State) : (unpackInit s).cap = s.cap := rfl
@[simp] theorem unpackInit_esc (s : State) : (unpackInit s).esc = s.esc := rfl
@[simp] theorem unpackInit_txt (s : State) : (unpackInit s).txt = s.txt := rfl
@[simp] theorem unpackInit_done (s : State) : (unpackInit s).done = s.done := rfl
@[simp] theorem unpackInit_err (s : State) : (unpackInit s).err = s.err := rfl
@[simp] theorem unpackInit_fb (s : State) : (unpackInit s).fb = s.fb := rfl
@[simp] theorem unpackInit_capValid (s : State) : (unpackInit s).capValid = s.capValid := rfl
@[simp] theorem unpackInit_port (s : State) : (unpackInit s).port = s.port := rfl
@[simp] theorem unpackInit_startIn (s : State) : (unpackInit s).startIn = s.startIn := rfl
@[simp] theorem unpackInit_resetIn (s : State) : (unpackInit s).resetIn = s.resetIn := rfl
@[simp] theorem unpackInit_freeCtr (s : State) : (unpackInit s).freeCtr = s.freeCtr := rfl
@[simp] theorem unpackInit_M (s : State) : (unpackInit s).M = s.M := rfl
@[simp] theorem unpackInit_chr (s : State) (i : Nat) : (unpackInit s).chr i = s.chr i := rfl
@[simp] theorem unpackInit_oct (s : State) (i : Nat) : (unpackInit s).oct? i = s.oct? i := rfl
@[simp] theorem unpackInit_ud (s : State) (i : Nat) : (unpackInit s).ud? i = s.ud? i := rfl
@[simp] theorem unpackInit_payLen (s : State) : (unpackInit s).payLen = s.payLen := rfl
@[simp] theorem unpackInit_pay (s : State) (i : Nat) : (unpackInit s).pay? i = s.pay? i := rfl

/-! `ignoreStart` -/

@[simp] theorem ignoreStart_pdu (s : State) : (ignoreStart s).pdu = s.pdu := rfl
@[simp] theorem ignoreStart_N (s : State) : (ignoreStart s).N = s.N := rfl
@[simp] theorem ignoreStart_phase (s : State) : (ignoreStart s).phase = s.phase := rfl
@[simp] theorem ignoreStart_pos (s : State) : (ignoreStart s).pos = s.pos := rfl
@[simp] theorem ignoreStart_uoff (s : State) : (ignoreStart s).uoff = s.uoff := rfl
@[simp] theorem ignoreStart_bitpos (s : State) : (ignoreStart s).bitpos = s.bitpos := rfl
@[simp] theorem ignoreStart_cnt (s : State) : (ignoreStart s).cnt = s.cnt := rfl
@[simp] theorem ignoreStart_hp (s : State) : (ignoreStart s).hp = s.hp := rfl
@[simp] theorem ignoreStart_dcs (s : State) : (ignoreStart s).dcs = s.dcs := rfl
@[simp] theorem ignoreStart_udl (s : State) : (ignoreStart s).udl = s.udl := rfl
@[simp] theorem ignoreStart_ud0 (s : State) : (ignoreStart s).ud0 = s.ud0 := rfl
@[simp] theorem ignoreStart_udn (s : State) : (ignoreStart s).udn = s.udn := rfl
@[simp] theorem ignoreStart_thl (s : State) : (ignoreStart s).thl = s.thl := rfl
@[simp] theorem ignoreStart_span (s : State) : (ignoreStart s).span = s.span := rfl
@[simp] theorem ignoreStart_nst (s : State) : (ignoreStart s).nst = s.nst := rfl
@[simp] theorem ignoreStart_pad (s : State) : (ignoreStart s).pad = s.pad := rfl
@[simp] theorem ignoreStart_cap (s : State) : (ignoreStart s).cap = s.cap := rfl
@[simp] theorem ignoreStart_esc (s : State) : (ignoreStart s).esc = s.esc := rfl
@[simp] theorem ignoreStart_txt (s : State) : (ignoreStart s).txt = s.txt := rfl
@[simp] theorem ignoreStart_done (s : State) : (ignoreStart s).done = s.done := rfl
@[simp] theorem ignoreStart_err (s : State) : (ignoreStart s).err = s.err := rfl
@[simp] theorem ignoreStart_fb (s : State) : (ignoreStart s).fb = s.fb := rfl
@[simp] theorem ignoreStart_capValid (s : State) : (ignoreStart s).capValid = s.capValid := rfl
@[simp] theorem ignoreStart_port (s : State) : (ignoreStart s).port = s.port := rfl
@[simp] theorem ignoreStart_startIn (s : State) : (ignoreStart s).startIn = false := rfl
@[simp] theorem ignoreStart_resetIn (s : State) : (ignoreStart s).resetIn = s.resetIn := rfl
@[simp] theorem ignoreStart_freeCtr (s : State) : (ignoreStart s).freeCtr = s.freeCtr := rfl
@[simp] theorem ignoreStart_M (s : State) : (ignoreStart s).M = s.M := rfl
@[simp] theorem ignoreStart_chr (s : State) (i : Nat) : (ignoreStart s).chr i = s.chr i := rfl
@[simp] theorem ignoreStart_oct (s : State) (i : Nat) : (ignoreStart s).oct? i = s.oct? i := rfl
@[simp] theorem ignoreStart_ud (s : State) (i : Nat) : (ignoreStart s).ud? i = s.ud? i := rfl
@[simp] theorem ignoreStart_payLen (s : State) : (ignoreStart s).payLen = s.payLen := rfl
@[simp] theorem ignoreStart_pay (s : State) (i : Nat) : (ignoreStart s).pay? i = s.pay? i := rfl
@[simp] theorem ignoreStart_busy (s : State) : (ignoreStart s).busy = s.busy := rfl

/-! `abort` (R262): the host-visible part, and what stays -/

@[simp] theorem abort_err (e : ErrCode) (s : State) : (abort e s).err = e := rfl
@[simp] theorem abort_fb (e : ErrCode) (s : State) : (abort e s).fb = false := rfl
@[simp] theorem abort_txt (e : ErrCode) (s : State) : (abort e s).txt = [] := rfl
@[simp] theorem abort_phase (e : ErrCode) (s : State) : (abort e s).phase = .done := rfl
@[simp] theorem abort_done (e : ErrCode) (s : State) : (abort e s).done = true := rfl
@[simp] theorem abort_pdu (e : ErrCode) (s : State) : (abort e s).pdu = s.pdu := rfl
@[simp] theorem abort_N (e : ErrCode) (s : State) : (abort e s).N = s.N := rfl
@[simp] theorem abort_port (e : ErrCode) (s : State) : (abort e s).port = none := rfl
@[simp] theorem abort_capValid (e : ErrCode) (s : State) : (abort e s).capValid = s.capValid := rfl
@[simp] theorem abort_startIn (e : ErrCode) (s : State) : (abort e s).startIn = s.startIn := rfl
@[simp] theorem abort_resetIn (e : ErrCode) (s : State) : (abort e s).resetIn = s.resetIn := rfl
@[simp] theorem abort_freeCtr (e : ErrCode) (s : State) : (abort e s).freeCtr = s.freeCtr + 1 := rfl

/-! `startSequence` (R51) -/

@[simp] theorem startSequence_pdu (s : State) : (startSequence s).pdu = s.pdu := rfl
@[simp] theorem startSequence_N (s : State) : (startSequence s).N = s.N := rfl
@[simp] theorem startSequence_phase (s : State) : (startSequence s).phase = .hexchk := rfl
@[simp] theorem startSequence_pos (s : State) : (startSequence s).pos = 0 := rfl
@[simp] theorem startSequence_uoff (s : State) : (startSequence s).uoff = 0 := rfl
@[simp] theorem startSequence_bitpos (s : State) : (startSequence s).bitpos = 0 := rfl
@[simp] theorem startSequence_cnt (s : State) : (startSequence s).cnt = 0 := rfl
@[simp] theorem startSequence_hp (s : State) : (startSequence s).hp = false := rfl
@[simp] theorem startSequence_dcs (s : State) : (startSequence s).dcs = 0 := rfl
@[simp] theorem startSequence_udl (s : State) : (startSequence s).udl = 0 := rfl
@[simp] theorem startSequence_ud0 (s : State) : (startSequence s).ud0 = 0 := rfl
@[simp] theorem startSequence_udn (s : State) : (startSequence s).udn = 0 := rfl
@[simp] theorem startSequence_thl (s : State) : (startSequence s).thl = 0 := rfl
@[simp] theorem startSequence_span (s : State) : (startSequence s).span = 0 := rfl
@[simp] theorem startSequence_nst (s : State) : (startSequence s).nst = false := rfl
@[simp] theorem startSequence_pad (s : State) : (startSequence s).pad = 0 := rfl
@[simp] theorem startSequence_cap (s : State) : (startSequence s).cap = 0 := rfl
@[simp] theorem startSequence_esc (s : State) : (startSequence s).esc = false := rfl
@[simp] theorem startSequence_txt (s : State) : (startSequence s).txt = [] := rfl
@[simp] theorem startSequence_done (s : State) : (startSequence s).done = false := rfl
@[simp] theorem startSequence_err (s : State) : (startSequence s).err = .ok := rfl
@[simp] theorem startSequence_fb (s : State) : (startSequence s).fb = false := rfl
@[simp] theorem startSequence_capValid (s : State) : (startSequence s).capValid = true := rfl
@[simp] theorem startSequence_port (s : State) : (startSequence s).port = none := rfl
@[simp] theorem startSequence_startIn (s : State) : (startSequence s).startIn = false := rfl
@[simp] theorem startSequence_resetIn (s : State) : (startSequence s).resetIn = false := rfl
@[simp] theorem startSequence_freeCtr (s : State) : (startSequence s).freeCtr = s.freeCtr := rfl

/-! `resetSequence` (R285) -/

@[simp] theorem resetSequence_phase (s : State) : (resetSequence s).phase = .idle := rfl
@[simp] theorem resetSequence_pos (s : State) : (resetSequence s).pos = 0 := rfl
@[simp] theorem resetSequence_uoff (s : State) : (resetSequence s).uoff = 0 := rfl
@[simp] theorem resetSequence_bitpos (s : State) : (resetSequence s).bitpos = 0 := rfl
@[simp] theorem resetSequence_cnt (s : State) : (resetSequence s).cnt = 0 := rfl
@[simp] theorem resetSequence_hp (s : State) : (resetSequence s).hp = false := rfl
@[simp] theorem resetSequence_dcs (s : State) : (resetSequence s).dcs = 0 := rfl
@[simp] theorem resetSequence_udl (s : State) : (resetSequence s).udl = 0 := rfl
@[simp] theorem resetSequence_ud0 (s : State) : (resetSequence s).ud0 = 0 := rfl
@[simp] theorem resetSequence_udn (s : State) : (resetSequence s).udn = 0 := rfl
@[simp] theorem resetSequence_thl (s : State) : (resetSequence s).thl = 0 := rfl
@[simp] theorem resetSequence_span (s : State) : (resetSequence s).span = 0 := rfl
@[simp] theorem resetSequence_nst (s : State) : (resetSequence s).nst = false := rfl
@[simp] theorem resetSequence_pad (s : State) : (resetSequence s).pad = 0 := rfl
@[simp] theorem resetSequence_cap (s : State) : (resetSequence s).cap = 0 := rfl
@[simp] theorem resetSequence_esc (s : State) : (resetSequence s).esc = false := rfl
@[simp] theorem resetSequence_txt (s : State) : (resetSequence s).txt = [] := rfl
@[simp] theorem resetSequence_done (s : State) : (resetSequence s).done = false := rfl
@[simp] theorem resetSequence_err (s : State) : (resetSequence s).err = .ok := rfl
@[simp] theorem resetSequence_fb (s : State) : (resetSequence s).fb = false := rfl
@[simp] theorem resetSequence_capValid (s : State) : (resetSequence s).capValid = true := rfl
@[simp] theorem resetSequence_port (s : State) : (resetSequence s).port = none := rfl
@[simp] theorem resetSequence_startIn (s : State) : (resetSequence s).startIn = false := rfl
@[simp] theorem resetSequence_resetIn (s : State) : (resetSequence s).resetIn = false := rfl

end Sys2Proof.Machine
end

