-- ==== Sys2Proof/Laws/Memory.lean ====
section
/-!
SUPPORT. The laws of the character buffer: a read after a write, and the canonical form, which every memory operation
keeps.
-/

namespace Sys2Proof.Machine

@[simp] theorem read_nil (a : Nat) : Mem.read [] a = Mem.unlisted := rfl

theorem read_pair (c : Nat) (x : Byte) (m : Mem) (a : Nat) :
    Mem.read ((c, x) :: m) a = if c = a then x else m.read a := rfl

/-- Every listed address of `m` lies above `a`. -/
def Mem.above (a : Nat) (m : Mem) : Prop := ∀ c ∈ m, a < c.1

theorem wf_pair (c : Nat) (x : Byte) (m : Mem) :
    Mem.wf ((c, x) :: m) = true ↔ x ≠ Mem.unlisted ∧ Mem.above c m ∧ m.wf = true := by
  induction m generalizing c x with
  | nil => simp [Mem.wf, Mem.above]
  | cons d m ih =>
    obtain ⟨d, y⟩ := d
    have h := ih d y
    constructor
    · intro hw
      simp only [Mem.wf, Bool.and_eq_true, decide_eq_true_eq, bne_iff_ne, ne_eq] at hw
      obtain ⟨⟨hcd, hx⟩, hw⟩ := hw
      refine ⟨hx, ?_, hw⟩
      intro e he
      rcases List.mem_cons.1 he with rfl | he
      · exact hcd
      · exact Nat.lt_trans hcd ((h.1 hw).2.1 e he)
    · rintro ⟨hx, ha, hw⟩
      simp only [Mem.wf, Bool.and_eq_true, decide_eq_true_eq, bne_iff_ne, ne_eq]
      exact ⟨⟨ha (d, y) List.mem_cons_self, hx⟩, hw⟩

theorem read_above {m : Mem} {a : Nat} (h : Mem.above a m) : m.read a = Mem.unlisted := by
  induction m with
  | nil => rfl
  | cons c m ih =>
    obtain ⟨c, x⟩ := c
    have hc : a < c := h (c, x) List.mem_cons_self
    rw [read_pair, if_neg (by omega)]
    exact ih fun e he => h e (List.mem_cons_of_mem _ he)

theorem above_mono {m : Mem} {a b : Nat} (hab : a ≤ b) (h : Mem.above b m) : Mem.above a m :=
  fun c hc => Nat.lt_of_le_of_lt hab (h c hc)

theorem cons_wf {a : Nat} {b : Byte} {m : Mem} (ha : Mem.above a m) (hw : m.wf = true) :
    (Mem.cons a b m).wf = true := by
  unfold Mem.cons
  split
  · exact hw
  · exact (wf_pair a b m).2 ⟨‹_›, ha, hw⟩

theorem cons_above {a c : Nat} {b : Byte} {m : Mem} (hca : c < a) (h : Mem.above c m) :
    Mem.above c (Mem.cons a b m) := by
  unfold Mem.cons
  split
  · exact h
  · intro e he
    rcases List.mem_cons.1 he with rfl | he
    · exact hca
    · exact h e he

theorem read_cons {a : Nat} {b : Byte} {m : Mem} (ha : Mem.above a m) (x : Nat) :
    (Mem.cons a b m).read x = if a = x then b else m.read x := by
  unfold Mem.cons
  split
  · rename_i hb
    split
    · rename_i hx
      rw [← hx, read_above ha, hb]
    · rfl
  · rfl

theorem write_above {c a : Nat} {b : Byte} {m : Mem} (hca : c < a) (h : Mem.above c m) :
    Mem.above c (m.write a b) := by
  induction m with
  | nil => exact cons_above hca h
  | cons d m ih =>
    obtain ⟨d, x⟩ := d
    have hm : Mem.above c m := fun e he => h e (List.mem_cons_of_mem _ he)
    unfold Mem.write
    split
    · exact cons_above hca h
    · split
      · exact cons_above hca hm
      · intro e he
        rcases List.mem_cons.1 he with rfl | he
        · exact h _ List.mem_cons_self
        · exact ih hm e he

/-- A write keeps the canonical form. -/
theorem write_wf {m : Mem} (hw : m.wf = true) (a : Nat) (b : Byte) : (m.write a b).wf = true := by
  induction m with
  | nil => exact cons_wf (by intro c hc; cases hc) hw
  | cons d m ih =>
    obtain ⟨d, x⟩ := d
    obtain ⟨hx, hd, hm⟩ := (wf_pair d x m).1 hw
    unfold Mem.write
    split
    · rename_i hlt
      refine cons_wf ?_ hw
      intro e he
      rcases List.mem_cons.1 he with rfl | he
      · exact hlt
      · exact Nat.lt_trans hlt (hd e he)
    · split
      · rename_i heq
        exact cons_wf (heq ▸ hd) hm
      · exact (wf_pair _ _ _).2 ⟨hx, write_above (by omega) hd, ih hm⟩

/-- A read after a write: the written location holds the new character, every other the old one. -/
theorem read_write {m : Mem} (hw : m.wf = true) (a : Nat) (b : Byte) (x : Nat) :
    (m.write a b).read x = if a = x then b else m.read x := by
  induction m with
  | nil => exact read_cons (by intro c hc; cases hc) x
  | cons d m ih =>
    obtain ⟨d, y⟩ := d
    obtain ⟨-, hd, hm⟩ := (wf_pair d y m).1 hw
    unfold Mem.write
    split
    · rename_i hlt
      refine read_cons ?_ x
      intro e he
      rcases List.mem_cons.1 he with rfl | he
      · exact hlt
      · exact Nat.lt_trans hlt (hd e he)
    · split
      · rename_i heq
        subst heq
        rw [read_cons hd, read_pair]
        split <;> rfl
      · rw [read_pair, read_pair, ih hm]
        split
        · rename_i hne hdx
          rw [if_neg (by omega)]
        · rfl

theorem read_write_same {m : Mem} (hw : m.wf = true) (a : Nat) (b : Byte) : (m.write a b).read a = b := by
  rw [read_write hw, if_pos rfl]

theorem read_write_ne {m : Mem} (hw : m.wf = true) {a x : Nat} (b : Byte) (h : a ≠ x) :
    (m.write a b).read x = m.read x := by
  rw [read_write hw, if_neg h]

/-- Storing a string keeps the canonical form. -/
theorem store_wf {m : Mem} (hw : m.wf = true) (a : Nat) (bs : List Byte) : (m.store a bs).wf = true := by
  induction bs generalizing m a with
  | nil => exact hw
  | cons b bs ih => exact ih (write_wf hw a b) (a + 1)

/-- What a location reads as after a string is stored from `a` on. -/
theorem read_store {m : Mem} (hw : m.wf = true) (a : Nat) (bs : List Byte) (x : Nat) :
    (m.store a bs).read x = if a ≤ x ∧ x < a + bs.length then bs.getD (x - a) 0 else m.read x := by
  induction bs generalizing m a with
  | nil => simp [Mem.store]
  | cons b bs ih =>
    rw [Mem.store, ih (write_wf hw a b), read_write hw]
    by_cases hx : a = x
    · subst hx
      simp
    · by_cases hin : a + 1 ≤ x ∧ x < a + 1 + bs.length
      · have h1 : a ≤ x ∧ x < a + (b :: bs).length := by simp; omega
        obtain ⟨k, hk⟩ : ∃ k, x - a = k + 1 := ⟨x - a - 1, by omega⟩
        have h2 : x - (a + 1) = k := by omega
        rw [if_pos hin, if_pos h1, hk, h2]
        simp
      · have h1 : ¬ (a ≤ x ∧ x < a + (b :: bs).length) := by simp; omega
        rw [if_neg hin, if_neg h1, if_neg hx]

end Sys2Proof.Machine
end

