-- ==== Sys2Proof/Laws/Ops.lean ====
section
/-!
SUPPORT. What each shared operation can do, said once: the equation on its domain, and the cases behind a next state.
-/

namespace Sys2Proof.Machine

/-! The views. -/

/-- `Oct(j)` is defined exactly below `M` where both characters are hex digits (R63). -/
theorem oct_eq_some {s : State} {j : Nat} {b : Byte} :
    s.oct? j = some b ↔ j < s.M ∧ octetOf (s.chr (2 * j)) (s.chr (2 * j + 1)) = some b := by
  unfold State.oct?
  split <;> simp_all

theorem ud_eq_some {s : State} {k : Nat} {b : Byte} :
    s.ud? k = some b ↔ k < s.udn ∧ s.oct? (s.ud0 + k) = some b := by
  unfold State.ud?
  split <;> simp_all

theorem pay_eq (s : State) (i : Nat) : s.pay? i = s.ud? (s.span + i) := rfl

theorem octetOf_isSome {a b : Byte} : (octetOf a b).isSome = ((hexVal a).isSome && (hexVal b).isSome) := by
  unfold octetOf
  cases hexVal a <;> cases hexVal b <;> rfl

/-- A digit value fits a nibble (R62). -/
theorem hexVal_lt {c : Byte} {x : Nat} (h : hexVal c = some x) : x < 16 := by
  unfold hexVal at h
  split at h
  · cases h; omega
  · split at h
    · cases h; omega
    · split at h <;> cases h
      omega

/-- The octet of a pair of digits: the first is the high nibble (R63). -/
theorem octetOf_eq_some {a b o : Byte} :
    octetOf a b = some o ↔ ∃ x y, hexVal a = some x ∧ hexVal b = some y ∧ o.toNat = 16 * x + y := by
  unfold octetOf
  cases ha : hexVal a with
  | none => simp
  | some x =>
    cases hb : hexVal b with
    | none => simp
    | some y =>
      have hx := hexVal_lt ha
      have hy := hexVal_lt hb
      simp only [Option.some.injEq, ← BitVec.toNat_inj, BitVec.toNat_ofNat,
        Nat.mod_eq_of_lt (show 16 * x + y < 2 ^ 8 by omega)]
      constructor
      · intro h; exact ⟨x, y, rfl, rfl, h.symm⟩
      · rintro ⟨x', y', rfl, rfl, h⟩; exact h.symm

/-- Where `P.HEX` has passed, every octet below `M` is defined (R63). -/
theorem oct_isSome {s : State} (h : s.HexOk) {j : Nat} (hj : j < s.M) : ∃ b, s.oct? j = some b := by
  have hM : s.M = s.N / 2 := rfl
  have h1 := h.2 (2 * j) (by omega)
  have h2 := h.2 (2 * j + 1) (by omega)
  have h3 : (octetOf (s.chr (2 * j)) (s.chr (2 * j + 1))).isSome = true := by
    rw [octetOf_isSome, h1, h2]; rfl
  obtain ⟨b, hb⟩ := Option.isSome_iff_exists.1 h3
  exact ⟨b, oct_eq_some.2 ⟨hj, hb⟩⟩

/-- Where the user data is the rest of a checked string, every octet of it is defined (R64). -/
theorem ud_isSome {s : State} (h : s.HexOk) (hw : s.ud0 + s.udn = s.M) {k : Nat} (hk : k < s.udn) :
    ∃ b, s.ud? k = some b := by
  obtain ⟨b, hb⟩ := oct_isSome h (j := s.ud0 + k) (by omega)
  exact ⟨b, ud_eq_some.2 ⟨hk, hb⟩⟩

theorem pay_isSome {s : State} (h : s.Window) {i : Nat} (hi : i < s.payLen) : ∃ b, s.pay? i = some b := by
  have hp : s.payLen = s.udn - s.span := rfl
  exact ud_isSome h.1 h.2.1 (by omega)

/-! `need`, `withOct`, `withUd`, `withPay`, `andThen`. -/

theorem need_ok {k : Nat} {s : State} {r : Result} (h : s.pos + k ≤ s.M) : need k s r = r :=
  if_neg (by omega)

theorem need_short {k : Nat} {s : State} {r : Result} (h : s.M < s.pos + k) :
    need k s r = raise .malformedInput s := if_pos h

/-- `Need(k)` goes on where the octets exist, and raises where they do not (R210). -/
theorem need_next {k : Nat} {s t : State} {r : Result} (h : need k s r = .next t) :
    (s.pos + k ≤ s.M ∧ r = .next t) ∨ (s.M < s.pos + k ∧ t = abort .malformedInput s) := by
  unfold need at h
  split at h
  · exact .inr ⟨‹_›, (Host.Outcome.next.inj h).symm⟩
  · exact .inl ⟨by omega, h⟩

theorem withOct_some {s : State} {j : Nat} {k : Byte → Result} {b : Byte} (h : s.oct? j = some b) :
    withOct s j k = k b := by simp [withOct, h]

theorem withOct_none {s : State} {j : Nat} {k : Byte → Result} (h : s.oct? j = none) :
    withOct s j k = .fault .octetOutOfDomain := by simp [withOct, h]

theorem withOct_next {s t : State} {j : Nat} {k : Byte → Result} (h : withOct s j k = .next t) :
    ∃ b, s.oct? j = some b ∧ k b = .next t := by
  unfold withOct at h
  split at h
  · exact ⟨_, ‹_›, h⟩
  · cases h

theorem withUd_some {s : State} {j : Nat} {k : Byte → Result} {b : Byte} (h : s.ud? j = some b) :
    withUd s j k = k b := by simp [withUd, h]

theorem withUd_none {s : State} {j : Nat} {k : Byte → Result} (h : s.ud? j = none) :
    withUd s j k = .fault .userDataOutOfDomain := by simp [withUd, h]

theorem withUd_next {s t : State} {j : Nat} {k : Byte → Result} (h : withUd s j k = .next t) :
    ∃ b, s.ud? j = some b ∧ k b = .next t := by
  unfold withUd at h
  split at h
  · exact ⟨_, ‹_›, h⟩
  · cases h

theorem withPay_some {s : State} {i : Nat} {k : Byte → Result} {b : Byte} (h : s.pay? i = some b) :
    withPay s i k = k b := withUd_some h

theorem withPay_none {s : State} {i : Nat} {k : Byte → Result} (h : s.pay? i = none) :
    withPay s i k = .fault .userDataOutOfDomain := withUd_none h

theorem withPay_next {s t : State} {i : Nat} {k : Byte → Result} (h : withPay s i k = .next t) :
    ∃ b, s.pay? i = some b ∧ k b = .next t := withUd_next h

theorem withSeptet_some {s : State} {q : Nat} {k : Septet → Result} {b0 b1 : Byte} (h0 : s.pay? (q / 8) = some b0)
    (h1 : s.pay? ((q + 6) / 8) = some b1) : withSeptet s q k = k (septetOf (pairBit b0 b1 (q % 8))) := by
  rw [withSeptet, withPay_some h0, withPay_some h1]

theorem withSeptet_next {s t : State} {q : Nat} {k : Septet → Result} (h : withSeptet s q k = .next t) :
    ∃ b0 b1, s.pay? (q / 8) = some b0 ∧ s.pay? ((q + 6) / 8) = some b1 ∧
      k (septetOf (pairBit b0 b1 (q % 8))) = .next t := by
  obtain ⟨b0, h0, h⟩ := withPay_next h
  obtain ⟨b1, h1, h⟩ := withPay_next h
  exact ⟨b0, b1, h0, h1, h⟩

@[simp] theorem andThen_next (s : State) (k : State → Result) : andThen (.next s) k = k s := rfl

theorem andThen_eq_next {r : Result} {k : State → Result} {t : State} (h : andThen r k = .next t) :
    ∃ s, r = .next s ∧ k s = .next t := by
  cases r with
  | next s => exact ⟨s, rfl, h⟩
  | fault f => cases h
  | refused x => cases h

/-! Abort. -/

theorem raise_eq (e : ErrCode) (s : State) : raise e s = .next (abort e s) := rfl

theorem raise_next {e : ErrCode} {s t : State} (h : raise e s = .next t) : t = abort e s :=
  (Host.Outcome.next.inj h).symm

/-- An abort after the parser cursor has moved leaves the same state: the cursor is free either way. -/
@[simp] theorem abort_skip (e : ErrCode) (k : Nat) (s : State) : abort e (skip k s) = abort e s := rfl

theorem abort_aborted (e : ErrCode) (s : State) : Aborted e (abort e s) := ⟨rfl, rfl, rfl, rfl, rfl⟩

theorem abort_fits (e : ErrCode) (s : State) : (abort e s).Fits :=
  ⟨Nat.mod_lt _ (by decide), Nat.mod_lt _ (by decide), Nat.mod_lt _ (by decide), Nat.mod_lt _ (by decide)⟩

/-- An abort keeps the invariant (R262). -/
theorem abort_inv {s : State} (e : ErrCode) (h : s.Inv) : (abort e s).Inv :=
  ⟨h.1, ⟨fun _ => rfl, fun _ => rfl⟩, rfl, h.2.2.2.1, abort_fits e s, fun _ => ⟨rfl, rfl⟩⟩

/-! Derived counts. -/

/-- The padding is below 7, so it fits the three bits of `pad` (R104, R182). -/
theorem padFor_lt (span : Nat) : padFor span < 7 := by
  unfold padFor
  dsimp only
  split <;> omega

theorem spanOf_le (t : Byte) : 1 ≤ spanOf t ∧ spanOf t ≤ 256 := by
  unfold spanOf
  omega

theorem capFor_le (u : Byte) (span : Nat) : capFor u span ≤ 255 := by
  unfold capFor
  omega

/-! `advance`, `emitBasic`, `walkElement`. -/

theorem advance_lt {k : Nat} {s : State} (h : s.bitpos + k < s.payLen) :
    advance k s = { s with bitpos := s.bitpos + k } := if_pos h

theorem advance_end {k : Nat} {s : State} (h : s.payLen ≤ s.bitpos + k) :
    advance k s = finish { s with bitpos := s.bitpos + k } := if_neg (by omega)

/-- A septet of `U` is a valid index of the basic alphabet: no fallback (R154, R158). -/
theorem emitBasic_valid {v : Byte} (h : v.toNat ≤ 127) (s : State) :
    emitBasic v s = emit (Config.tables.basic (v.setWidth 7)) s := if_pos h

theorem emitBasic_invalid {v : Byte} (h : 127 < v.toNat) (s : State) :
    emitBasic v s = substitute Config.tables.fallback s := if_neg (by omega)

/-- An element is walked, or one of its two bound checks raises (R179, R180). -/
theorem walkElement_next {id n : Byte} {s t : State} (h : walkElement id n s = .next t) :
    ((s.span ≤ s.uoff + 1 ∨ s.span < s.uoff + elementSize n) ∧ t = abort .structuralHeaderError s) ∨
    (s.uoff + 1 < s.span ∧ s.uoff + elementSize n ≤ s.span ∧
      t = { s with nst := nstAfter id s.nst, uoff := s.uoff + elementSize n,
                   phase := walkPhase (s.uoff + elementSize n) s.span }) := by
  unfold walkElement at h
  split at h
  · exact .inl ⟨.inl ‹_›, raise_next h⟩
  · split at h
    · exact .inl ⟨.inr ‹_›, raise_next h⟩
    · exact .inr ⟨by omega, by omega, (Host.Outcome.next.inj h).symm⟩

/-! Septets. -/

/-- A septet on the 8-bit port is at most 127 (R98, R158). -/
theorem portValue_le (v : Septet) : (portValue v).toNat ≤ 127 := by
  have h := v.isLt
  simp only [portValue, BitVec.toNat_setWidth]
  omega

/-- `U.NEXT` where the stop rule allows it and the octets are there (R133). -/
theorem execUNext_enabled {s : State} {b0 b1 : Byte} (h : unpackEnabled s = true)
    (h0 : s.pay? (s.bitpos / 8) = some b0) (h1 : s.pay? ((s.bitpos + 6) / 8) = some b1) :
    execUNext s = .next { s with
      bitpos := s.bitpos + 7, cnt := s.cnt + 1, port := some (portValue (septetOf (pairBit b0 b1 (s.bitpos % 8)))) } := by
  rw [execUNext, if_pos h, withSeptet_some h0 h1]
  rfl

theorem unpackEnabled_iff {s : State} :
    unpackEnabled s = true ↔ s.bitpos + 7 ≤ 8 * s.payLen ∧ (s.capValid = false ∨ s.cnt < s.cap) := by
  simp [unpackEnabled]

/-- Everything `U.NEXT` can answer as a next state. -/
theorem execUNext_next {s t : State} (h : execUNext s = .next t) :
    (unpackEnabled s = false ∧ t = s) ∨
    (unpackEnabled s = true ∧ ∃ v : Septet,
      t = { s with bitpos := s.bitpos + 7, cnt := s.cnt + 1, port := some (portValue v) }) := by
  unfold execUNext at h
  split at h
  · obtain ⟨b0, b1, -, -, h⟩ := withSeptet_next h
    exact .inr ⟨‹_›, _, (Host.Outcome.next.inj h).symm⟩
  · rename_i he
    exact .inl ⟨by simpa using he, (Host.Outcome.next.inj h).symm⟩

/-- What the one selected operation of `G` does to a state (R152 to R155). -/
inductive SeptetEffect (v : Byte) (s : State) : State → Prop where
  | ended : s.esc = false → v = Config.septEnd → SeptetEffect v s (finish (consume s))
  | escaped : s.esc = false → v = Config.septEsc → SeptetEffect v s { consume s with esc := true }
  | shifted (c : CodePoint) : s.esc = true → shiftEntry s.nst v = some c →
      SeptetEffect v s (decoderInit (emit c (consume s)))
  | basic (e : Bool) : v.toNat ≤ 127 →
      SeptetEffect v s { emit (Config.tables.basic (v.setWidth 7)) (consume s) with esc := e }
  | replaced (e : Bool) : 127 < v.toNat →
      SeptetEffect v s { substitute Config.tables.fallback (consume s) with esc := e }

theorem septetOp_next {v : Byte} {s t : State} (h : septetOp v s = .next t) : SeptetEffect v s t := by
  unfold septetOp at h
  split at h
  · rename_i he
    unfold execGXchr at h
    split at h
    · cases h; exact .shifted _ he ‹_›
    · cases h
      by_cases hv : v.toNat ≤ 127
      · rw [emitBasic_valid hv]; exact .basic false hv
      · rw [emitBasic_invalid (by omega)]; exact .replaced false (by omega)
  · rename_i he
    have he : s.esc = false := by simpa using he
    split at h
    · cases h; exact .ended he ‹_›
    · split at h
      · cases h; exact .escaped he ‹_›
      · cases h
        by_cases hv : v.toNat ≤ 127
        · rw [emitBasic_valid hv]; exact .basic s.esc hv
        · rw [emitBasic_invalid (by omega)]; exact .replaced s.esc (by omega)

/-- `G` always answers a next state (R162). -/
theorem septetOp_total (v : Byte) (s : State) : ∃ t, septetOp v s = .next t := by
  unfold septetOp execGXchr execGEnd execGEsc execGChr
  split
  · split <;> exact ⟨_, rfl⟩
  · split
    · exact ⟨_, rfl⟩
    · split <;> exact ⟨_, rfl⟩

end Sys2Proof.Machine
end

