-- ==== Sys2Proof/Laws/Functions.lean ====
section
/-!
SUPPORT. The laws of the pure functions and of the operations they mirror: bits of septets and octets, the packer's
stream, the decoder's accumulators, the hex check, one walked element, one payload step.
-/

namespace Sys2Proof.Machine

/-! Bits. -/

/-- The bits of an assembled septet (R67). -/
theorem septetOf_bit (bit : Nat → Bool) {j : Nat} (hj : j < 7) : (septetOf bit).getLsbD j = bit j := by
  have key : ∀ b0 b1 b2 b3 b4 b5 b6 : Bool, ∀ i : Fin 7,
      (BitVec.ofNat 7 (b0.toNat <<< 0 + b1.toNat <<< 1 + b2.toNat <<< 2 + b3.toNat <<< 3 + b4.toNat <<< 4 +
        b5.toNat <<< 5 + b6.toNat <<< 6)).getLsbD i = [b0, b1, b2, b3, b4, b5, b6].getD i false := by decide
  rw [septetOf, key _ _ _ _ _ _ _ ⟨j, hj⟩]
  obtain rfl | rfl | rfl | rfl | rfl | rfl | rfl : j = 0 ∨ j = 1 ∨ j = 2 ∨ j = 3 ∨ j = 4 ∨ j = 5 ∨ j = 6 := by omega
  all_goals rfl

/-- The same as a bit of the value. -/
theorem septetOf_testBit (f : Nat → Bool) {i : Nat} (hi : i < 7) : (septetOf f).toNat.testBit i = f i :=
  septetOf_bit f hi

/-- Septets with the same seven bits are equal. -/
theorem septet_ext {v w : Septet} (h : ∀ j < 7, v.getLsbD j = w.getLsbD j) : v = w :=
  BitVec.eq_of_getLsbD_eq h

/-- Equal bits give equal septets (R67). -/
theorem septetOf_congr {f g : Nat → Bool} (h : ∀ j < 7, f j = g j) : septetOf f = septetOf g :=
  septet_ext fun j hj => by rw [septetOf_bit f hj, septetOf_bit g hj, h j hj]

/-- A septet read from a stream that holds its bits is that septet. -/
theorem septetOf_eq {f : Nat → Bool} {v : Septet} (h : ∀ j < 7, f j = v.getLsbD j) : septetOf f = v :=
  septet_ext fun j hj => by rw [septetOf_bit f hj, h j hj]

/-- Bits of an octet made of bits. -/
theorem byteOfBits_bit (bits : List Bool) {j : Nat} (hj : j < 8) :
    (byteOfBits bits).getLsbD j = bits.getD j false := by
  have key : ∀ b0 b1 b2 b3 b4 b5 b6 b7 : Bool, ∀ i : Fin 8,
      (BitVec.ofNat 8 (b0.toNat <<< 0 + (b1.toNat <<< 1 + (b2.toNat <<< 2 + (b3.toNat <<< 3 + (b4.toNat <<< 4 +
        (b5.toNat <<< 5 + (b6.toNat <<< 6 + (b7.toNat <<< 7 + 0))))))))).getLsbD i =
        [b0, b1, b2, b3, b4, b5, b6, b7].getD i false := by decide
  rw [byteOfBits]
  refine (key (bits.getD 0 false) (bits.getD 1 false) (bits.getD 2 false) (bits.getD 3 false)
    (bits.getD 4 false) (bits.getD 5 false) (bits.getD 6 false) (bits.getD 7 false) ⟨j, hj⟩).trans ?_
  obtain rfl | rfl | rfl | rfl | rfl | rfl | rfl | rfl :
    j = 0 ∨ j = 1 ∨ j = 2 ∨ j = 3 ∨ j = 4 ∨ j = 5 ∨ j = 6 ∨ j = 7 := by omega
  all_goals rfl

/-! The reference packer and the unpacker. -/

/-- The bit string of a packed sequence: the padding and seven bits a septet. -/
theorem packBits_length (S : List Septet) (p : BitVec 3) : (packBits S p).length = p.toNat + 7 * S.length := by
  have : ∀ S : List Septet, (S.flatMap septetBits).length = 7 * S.length := by
    intro S
    induction S with
    | nil => rfl
    | cons v S ih => simp [septetBits] at *; omega
  simp [packBits, this]

/-- Bit `j` of septet `k` in the bit string of a sequence. -/
theorem flatMap_bits (S : List Septet) : ∀ (k j : Nat), j < 7 → k < S.length →
    (S.flatMap septetBits).getD (7 * k + j) false = (S.getD k 0).getLsbD j := by
  induction S with
  | nil => intro k j _ h; simp at h
  | cons v S ih =>
    intro k j hj hk
    cases k with
    | zero =>
      rw [List.flatMap_cons, List.getD_append _ _ _ _ (by simp [septetBits]; omega)]
      simp [septetBits, List.getD_eq_getElem?_getD, hj]
    | succ k =>
      rw [List.flatMap_cons, List.getD_append_right _ _ _ _ (by simp [septetBits]; omega)]
      have h := ih k j hj (by simpa using hk)
      rw [show 7 * (k + 1) + j - (septetBits v).length = 7 * k + j by simp [septetBits]; omega, h]
      simp

/-- The same after the padding. -/
theorem packBits_bit (S : List Septet) (p : BitVec 3) {k j : Nat} (hj : j < 7) (hk : k < S.length) :
    (packBits S p).getD (p.toNat + 7 * k + j) false = (S.getD k 0).getLsbD j := by
  rw [packBits, List.getD_append_right _ _ _ _ (by simp; omega), ← flatMap_bits S k j hj hk]
  congr 1; simp; omega

/-- The octets of a packed sequence. -/
theorem pack_length (S : List Septet) (p : BitVec 3) : (pack S p).length = (p.toNat + 7 * S.length + 7) / 8 := by
  simp [pack, packBits_length]

/-- The stream bits of a packed sequence. -/
theorem bitAt_pack (S : List Septet) (p : BitVec 3) {i : Nat} (hi : i < p.toNat + 7 * S.length) :
    bitAt (pack S p) i = (packBits S p).getD i false := by
  unfold bitAt
  have h1 : i / 8 < ((packBits S p).length + 7) / 8 := by rw [packBits_length]; omega
  have h2 : (pack S p).getD (i / 8) 0 = byteOfBits ((packBits S p).drop (8 * (i / 8))) := by
    simp [pack, List.getD_eq_getElem?_getD, h1]
  rw [h2, byteOfBits_bit _ (by omega)]
  simp [List.getD_eq_getElem?_getD, show 8 * (i / 8) + i % 8 = i by omega]

/-- As many septets as the closed form counts (R135). -/
theorem unpack_length (B : List Byte) (p : BitVec 3) (cap : Option Nat) :
    (unpack B p cap).length = unpackCount B.length p.toNat cap := by simp [unpack]

/-! The decoder's accumulators. -/

/-- What the recursion of R165 has emitted already stands before what it emits. -/
theorem g7Go_out (tb : Tables) (u : Bool) (S : List Byte) : ∀ (e : Bool) (out : List CodePoint) (fb : Bool),
    g7Go tb u S e out fb = (out ++ (g7Go tb u S e [] false).1, fb || (g7Go tb u S e [] false).2) := by
  induction S with
  | nil => intro e out fb; cases e <;> simp [g7Go]
  | cons v r ih =>
    intro e out fb
    cases e with
    | false =>
      simp only [g7Go]
      split
      · simp
      · split
        · exact ih _ _ _
        · split
          · rw [ih, ih _ ([] ++ _)]; simp
          · rw [ih, ih _ ([] ++ _) true]; simp
    | true =>
      simp only [g7Go]
      split
      · rw [ih, ih _ ([] ++ _)]; simp
      · split
        · rw [ih, ih _ ([] ++ _)]; simp
        · rw [ih, ih _ ([] ++ _) true]; simp

/-! `take` of R213, and when the host's input is open. -/

theorem takeOctets_eq_some {m pos k r : Nat} : takeOctets m pos k = some r ↔ pos + k ≤ m ∧ r = pos + k := by
  unfold takeOctets
  split
  · exact ⟨nofun, fun h => absurd h.1 (by omega)⟩
  · exact ⟨fun h => ⟨by omega, (Option.some.inj h).symm⟩, fun h => by rw [h.2]⟩

/-- The input is open exactly when no decode runs and no start waits (R297, log 28). -/
theorem inputLocked_eq_false {s : State} : s.inputLocked = false ↔ s.busy = false ∧ s.startIn = false := by
  simp [State.inputLocked]

theorem hostLoad_open {s : State} (h : s.inputLocked = false) (cs : List Byte) :
    hostLoad cs s = some { s with pdu := Mem.store s.pdu 0 cs, N := cs.length } := by simp [hostLoad, h]

theorem hostLoad_locked {s : State} (h : s.inputLocked = true) (cs : List Byte) : hostLoad cs s = none := by
  simp [hostLoad, h]

/-! The hex check, one header element, one payload step. -/

/-- `P.HEX` looks at every character below `N` (R200). -/
theorem chars_all (s : State) : s.chars.all isHexDigit = true ↔ ∀ i < s.N, (hexVal (s.chr i)).isSome = true := by
  simp [State.chars, isHexDigit]

/-- An element that does not fit the header raises (R179, R180). -/
theorem walk_bad {s : State} {id n : Byte} (h : s.span ≤ s.uoff + 1 ∨ s.span < s.uoff + 2 + n.toNat) :
    walkElement id n s = raise .structuralHeaderError s := by
  rw [walkElement]
  split
  · rfl
  · rw [if_pos (by simp [elementSize]; omega)]

/-- An element that fits is walked (R180). -/
theorem walk_ok {s : State} {id n : Byte} (h1 : s.uoff + 1 < s.span) (h2 : s.uoff + 2 + n.toNat ≤ s.span) :
    walkElement id n s = .next { s with
      nst := s.nst || id == 0x24, uoff := s.uoff + 2 + n.toNat,
      phase := if s.uoff + 2 + n.toNat < s.span then .udhIe else .udhPad } := by
  rw [walkElement, if_neg (by omega), if_neg (by simp [elementSize]; omega)]
  simp only [elementSize, nstAfter, walkPhase, Nat.add_assoc]
  rfl

/-- An octet or unit with a code point (R235, R237, R241). -/
theorem advance_emit (c : CodePoint) (k : Nat) (s : State) : advance k (emit c s) = payloadStep c false k s := by
  by_cases h : s.bitpos + k < s.payLen
  · rw [advance_lt (s := emit c s) h]; simp [payloadStep, h, emit]
  · rw [advance_end (s := emit c s) (Nat.le_of_not_lt h)]; simp [payloadStep, h, emit, finish]

/-- An octet or unit with a substitute (R235, R237, R241). -/
theorem advance_sub (c : CodePoint) (k : Nat) (s : State) : advance k (substitute c s) = payloadStep c true k s := by
  by_cases h : s.bitpos + k < s.payLen
  · rw [advance_lt (s := substitute c s) h]; simp [payloadStep, h, emit, substitute, noteFallback]
  · rw [advance_end (s := substitute c s) (Nat.le_of_not_lt h)]; simp [payloadStep, h, emit, finish, substitute, noteFallback]

end Sys2Proof.Machine
end

