-- ==== Sys2Proof/Laws/Step.lean ====
section
/-!
SUPPORT. What one step can do, said once; and that fetching, decoding and running a phase's word is the sequencer's own
step, so that DECODE (which runs the sequencer) and `step` agree.
-/

namespace Sys2Proof.Machine

open Sys2Proof

/-- The word at the port decodes to the operation (esc, v) selects, so running it is `septetOp` (R98). -/
theorem runWord_septet (v : Byte) (s : State) : runWord .septet (septWord s.esc v) s = septetOp v s := by
  cases h : s.esc
  · have hd : decode .septet (septWord false v) = .ok (decodeSept false v) := rfl
    rw [runWord, hd, septetOp, h]
    by_cases h0 : v = 0x00
    · subst h0; rfl
    · by_cases h1 : v = 0x1B
      · subst h1; rfl
      · have hs : decodeSept false v = .gChr v := (if_neg h0).trans (if_neg h1)
        rw [hs, if_neg Bool.false_ne_true,
          if_neg (show ¬v = Config.septEnd from h0), if_neg (show ¬v = Config.septEsc from h1)]
        rfl
  · have hd : decode .septet (septWord true v) = .ok (.gXchr v) := rfl
    rw [runWord, hd, septetOp, h]
    rfl

theorem runPort_eq (s : State) : runPort s = takePort s := by
  unfold runPort takePort
  cases s.port with
  | none => rfl
  | some v => exact runWord_septet v s

/-- An octet at a position selects nothing: the operation is the position's (R108). -/
theorem byPositionOctet_toList (i : Instr) (o : Option Byte) : byPositionOctet i o.toList = .ok i := by
  cases o <;> rfl

/-- Running the word of an element is H.IE (R179, R180): identifier 0x24 or any other, or the whole row where the
element's two octets are not both there. -/
theorem runWord_element (s : State) : runWord .udhElem (elementWord s) s = execHIe s := by
  unfold elementWord
  by_cases hb : s.uoff + 1 ≥ s.span
  · rw [if_pos hb]; rfl
  · rw [if_neg hb]
    cases h1 : s.ud? s.uoff with
    | none => rfl
    | some id =>
      cases h2 : s.ud? (s.uoff + 1) with
      | none => rfl
      | some n =>
        have he : execHIe s = walkElement id n s := by
          rw [execHIe, if_neg hb, withUd_some h1, withUd_some h2]
        rw [he]
        have hd : decode .udhElem [id, n] = .ok (decodeElement id n) := rfl
        show runWord .udhElem [id, n] s = walkElement id n s
        rw [runWord, hd]
        by_cases h24 : id = 0x24
        · subst h24; rfl
        · rw [show decodeElement id n = .hIeOther id n from if_neg h24]
          rfl

/-- Fetch, decode and run is the sequencer's step of a running decode (R23). -/
theorem runPhase_eq_seqStep {s : State} (h : s.busy = true) : runPhase s = seqStep s := by
  unfold runPhase seqStep
  cases hp : s.phase with
  | idle => simp [State.busy, hp] at h
  | done => simp [State.busy, hp] at h
  | pay7 =>
    simp only
    unfold pay7Step
    cases hport : s.port with
    | some v =>
      simp only
      rw [runPort_eq, takePort, hport]
    | none =>
      simp only
      have hw : runWord .unpackNext [] s = execUNext s := rfl
      have hr : runPort = takePort := funext runPort_eq
      rw [hw, hr]
  | udhIe =>
    have hw : wordAt s = elementWord s := by simp [wordAt, hp]
    simp only [placeOf]
    rw [hw]
    exact runWord_element s
  | fSmsc | fFlags | fOa | fPid | fDcs | fScts | fUdl =>
    have hw : wordAt s = (s.oct? s.pos).toList := by simp [wordAt, hp]
    simp only [placeOf, runWord, hw, decode, byPositionOctet_toList]
    rfl
  | udhLen =>
    have hw : wordAt s = (s.ud? 0).toList := by simp [wordAt, hp]
    simp only [placeOf, runWord, hw, decode, byPositionOctet_toList]
    rfl
  | hexchk | fUd | udhPad | dispatch | pay8 | payU =>
    have hw : wordAt s = [] := by simp [wordAt, hp]
    simp only [placeOf, runWord, hw, decode, byPosition]
    rfl

/-- One step of a running decode without a reset event is the sequencer's (R23, R299). -/
theorem step_busy {s : State} (hr : s.resetIn = false) (hb : s.busy = true) :
    step s = seqStep (ignoreStart s) := by
  rw [step, hr, hb, if_neg Bool.false_ne_true, if_pos rfl]
  exact runPhase_eq_seqStep hb

/-- Everything a step can be: a reset, a step of the running decode, a start, or nothing (R285, R23, R296, R300). -/
theorem step_cases (s : State) :
    (s.resetIn = true ∧ step s = .next (resetSequence s)) ∨
    (s.resetIn = false ∧ s.busy = true ∧ step s = seqStep (ignoreStart s)) ∨
    (s.resetIn = false ∧ s.busy = false ∧ s.startIn = true ∧ step s = .next (startSequence s)) ∨
    (s.resetIn = false ∧ s.busy = false ∧ s.startIn = false ∧ step s = .next s) := by
  cases hr : s.resetIn with
  | true => exact .inl ⟨rfl, by rw [step, hr]; rfl⟩
  | false =>
    cases hb : s.busy with
    | true => exact .inr (.inl ⟨rfl, rfl, step_busy hr hb⟩)
    | false =>
      cases hs : s.startIn with
      | true => exact .inr (.inr (.inl ⟨rfl, rfl, rfl, by simp [step, hr, hb, hs]⟩))
      | false => exact .inr (.inr (.inr ⟨rfl, rfl, rfl, by simp [step, hr, hb, hs]⟩))

/-! The two loops: what every step keeps, the loop keeps. -/

theorem pay7Loop_keeps {P : State → Prop} (hstep : ∀ s t, P s → pay7Step s = .next t → P t) (n : Nat) :
    ∀ s t, P s → pay7Loop n s = .next t → P t := by
  induction n with
  | zero =>
    intro s t hs h
    unfold pay7Loop at h
    split at h <;> cases h
    exact hs
  | succ n ih =>
    intro s t hs h
    unfold pay7Loop at h
    split at h
    · cases h; exact hs
    · obtain ⟨u, hu, ht⟩ := andThen_eq_next h
      exact ih u t (hstep s u hs hu) ht

theorem runToDone_keeps {P : State → Prop} (hstep : ∀ s t, P s → seqStep s = .next t → P t) (n : Nat) :
    ∀ s t, P s → runToDone n s = .next t → P t := by
  induction n with
  | zero =>
    intro s t hs h
    unfold runToDone at h
    split at h <;> cases h
    exact hs
  | succ n ih =>
    intro s t hs h
    unfold runToDone at h
    split at h
    · cases h; exact hs
    · obtain ⟨u, hu, ht⟩ := andThen_eq_next h
      exact ih u t (hstep s u hs hu) ht

/-- Everything one step of PAY_7 can answer as a next state (R240): the value on the port run, a septet fetched and run, or
the end. -/
theorem pay7Step_next {s t : State} (h : pay7Step s = .next t) :
    (∃ v, s.port = some v ∧ SeptetEffect v s t) ∨
    (s.port = none ∧ unpackEnabled s = true ∧ ∃ v : Septet,
      SeptetEffect (portValue v)
        { s with bitpos := s.bitpos + 7, cnt := s.cnt + 1, port := some (portValue v) } t) ∨
    (s.port = none ∧ unpackEnabled s = false ∧ t = finish s) := by
  unfold pay7Step at h
  cases hp : s.port with
  | some v =>
    rw [hp] at h
    exact .inl ⟨v, rfl, septetOp_next h⟩
  | none =>
    rw [hp] at h
    simp only at h
    cases he : unpackEnabled s with
    | false =>
      rw [he, if_neg Bool.false_ne_true] at h
      exact .inr (.inr ⟨rfl, rfl, (Host.Outcome.next.inj h).symm⟩)
    | true =>
      rw [he, if_pos rfl] at h
      obtain ⟨u, hu, ht⟩ := andThen_eq_next h
      rcases execUNext_next hu with ⟨hx, -⟩ | ⟨-, v, rfl⟩
      · rw [he] at hx; cases hx
      · exact .inr (.inl ⟨rfl, rfl, v, septetOp_next ht⟩)

end Sys2Proof.Machine
end

