-- ==== Sys2Proof/Laws/Frame.lean ====
section
/-!
SUPPORT. What each operation leaves unchanged, said once per unit, from the effect of the shared operations.
-/

namespace Sys2Proof.Machine

open Sys2Proof

/-- What every operation of `U`, `G` and `D` but D.SEL leaves: the input, the error code, the record registers and the text
already there; `fb` is only ever set. -/
structure PayloadFrame (s t : State) : Prop where
  pdu : t.pdu = s.pdu
  N : t.N = s.N
  err : t.err = s.err
  fb : s.fb = true → t.fb = true
  txt : s.txt <+: t.txt
  hp : t.hp = s.hp
  dcs : t.dcs = s.dcs
  udl : t.udl = s.udl
  ud0 : t.ud0 = s.ud0
  udn : t.udn = s.udn
  thl : t.thl = s.thl
  span : t.span = s.span
  nst : t.nst = s.nst
  pad : t.pad = s.pad
  cap : t.cap = s.cap

theorem PayloadFrame.refl (s : State) : PayloadFrame s s :=
  ⟨rfl, rfl, rfl, id, List.prefix_rfl, rfl, rfl, rfl, rfl, rfl, rfl, rfl, rfl, rfl, rfl⟩

theorem PayloadFrame.trans {s t u : State} (h : PayloadFrame s t) (g : PayloadFrame t u) : PayloadFrame s u where
  pdu := g.pdu.trans h.pdu
  N := g.N.trans h.N
  err := g.err.trans h.err
  fb := g.fb ∘ h.fb
  txt := h.txt.trans g.txt
  hp := g.hp.trans h.hp
  dcs := g.dcs.trans h.dcs
  udl := g.udl.trans h.udl
  ud0 := g.ud0.trans h.ud0
  udn := g.udn.trans h.udn
  thl := g.thl.trans h.thl
  span := g.span.trans h.span
  nst := g.nst.trans h.nst
  pad := g.pad.trans h.pad
  cap := g.cap.trans h.cap


/-- A step of PAY_8 or PAY_U. -/
theorem payloadStep_frame (c : CodePoint) (k : Nat) (b : Bool) (s : State) : PayloadFrame s (payloadStep c b k s) := by
  constructor <;> simp_all [payloadStep]

/-- An operation of `G`. -/
theorem septetEffect_frame {v s t} (h : SeptetEffect v s t) : PayloadFrame s t := by
  cases h <;> constructor <;> simp_all [finish, consume, decoderInit, emit, substitute, noteFallback]

/-- A step of PAY_7. -/
theorem pay7Step_frame {s t} (h : pay7Step s = .next t) : PayloadFrame s t := by
  rcases pay7Step_next h with ⟨v, -, h⟩ | ⟨-, -, v, h⟩ | ⟨-, -, rfl⟩
  · exact septetEffect_frame h
  · exact PayloadFrame.trans (by constructor <;> simp) (septetEffect_frame h)
  · constructor <;> simp

/-- The whole 7-bit payload. -/
theorem execDGsm7_frame {s t} (h : execDGsm7 s = .next t) : PayloadFrame s t :=
  pay7Loop_keeps (P := fun t => PayloadFrame s t) (fun _ _ ha hb => ha.trans (pay7Step_frame hb)) _ _ _
    (by constructor <;> simp [goto]) h

/-- D.OCT8. -/
theorem execDOct8_frame {s t} (h : execDOct8 s = .next t) : PayloadFrame s t := by
  unfold execDOct8 at h
  split at h
  · obtain ⟨b, -, h⟩ := withPay_next h
    split at h <;> cases h
    · rw [advance_emit]; exact payloadStep_frame _ _ _ _
    · rw [advance_sub]; exact payloadStep_frame _ _ _ _
  · cases h; constructor <;> simp

/-- D.UCS2. -/
theorem execDUcs2_frame {s t} (h : execDUcs2 s = .next t) : PayloadFrame s t := by
  unfold execDUcs2 at h
  split at h
  · split at h
    · cases h; rw [advance_sub]; exact payloadStep_frame _ _ _ _
    · obtain ⟨b0, -, h⟩ := withPay_next h
      obtain ⟨b1, -, h⟩ := withPay_next h
      unfold ucs2Unit at h
      split at h
      · cases h; rw [advance_emit]; exact payloadStep_frame _ _ _ _
      · split at h
        · obtain ⟨b2, -, h⟩ := withPay_next h
          obtain ⟨b3, -, h⟩ := withPay_next h
          simp only at h
          split at h <;> cases h
          · rw [advance_emit]; exact payloadStep_frame _ _ _ _
          · rw [advance_sub]; exact payloadStep_frame _ _ _ _
        · cases h; rw [advance_sub]; exact payloadStep_frame _ _ _ _
  · cases h; constructor <;> simp

/-- The check of one character changes nothing or aborts. -/
theorem checkChar_next {c s t} (h : checkChar c s = .next t) : t = s ∨ t = abort .malformedInput s := by
  unfold checkChar at h; split at h
  · cases h; exact .inl rfl
  · exact .inr (raise_next h)


/-- An operation of `P` aborts with MalformedInput, or leaves all but `pos`, `phase` and the registers its rule names. -/
theorem parser_frame (i : Instr) (s t : State) (h : exec i s = .next t)
    (hi : unitOfInstr i = some .p) :
    t = abort .malformedInput s ∨
    (t.pdu = s.pdu ∧ t.N = s.N ∧ t.err = s.err ∧ t.fb = s.fb ∧ t.txt = s.txt ∧ t.cap = s.cap ∧
     t.thl = s.thl ∧ t.span = s.span ∧ t.nst = s.nst ∧ t.pad = s.pad ∧
     (i ≠ .pFlags → t.hp = s.hp) ∧ (i ≠ .pDcs → t.dcs = s.dcs) ∧ (i ≠ .pUdl → t.udl = s.udl) ∧
     (i ≠ .pUd → t.ud0 = s.ud0 ∧ t.udn = s.udn)) := by
  cases i <;> simp [unitOfInstr] at hi <;> simp only [exec] at h
  case pHex =>
    unfold execPHex at h
    split at h
    · exact .inl (raise_next h)
    · split at h
      · cases h; simp
      · exact .inl (raise_next h)
  case hexDec => rcases checkChar_next h with rfl | rfl <;> simp
  case hexUpper => rcases checkChar_next h with rfl | rfl <;> simp
  case hexLower => rcases checkChar_next h with rfl | rfl <;> simp
  case hexBad => rcases checkChar_next h with rfl | rfl <;> simp
  case pSmsc =>
    rcases need_next h with ⟨hk, h⟩ | ⟨-, h⟩
    · obtain ⟨b, hb, h⟩ := withOct_next h
      rcases need_next h with ⟨hk, h⟩ | ⟨-, h⟩
      · cases h; right; simp [goto, skip]
      · exact .inl h
    · exact .inl h
  case pFlags =>
    rcases need_next h with ⟨hk, h⟩ | ⟨-, h⟩
    · obtain ⟨b, hb, h⟩ := withOct_next h
      cases h; right; simp [goto, skip]
    · exact .inl h
  case pOa =>
    rcases need_next h with ⟨hk, h⟩ | ⟨-, h⟩
    · obtain ⟨b, hb, h⟩ := withOct_next h
      rcases need_next h with ⟨hk, h⟩ | ⟨-, h⟩
      · rcases need_next h with ⟨hk, h⟩ | ⟨-, h⟩
        · cases h; right; simp [goto, skip]
        · exact .inl h
      · exact .inl h
    · exact .inl h
  case pPid =>
    rcases need_next h with ⟨hk, h⟩ | ⟨-, h⟩
    · cases h; right; simp [goto, skip]
    · exact .inl h
  case pScts =>
    rcases need_next h with ⟨hk, h⟩ | ⟨-, h⟩
    · cases h; right; simp [goto, skip]
    · exact .inl h
  case pDcs =>
    rcases need_next h with ⟨hk, h⟩ | ⟨-, h⟩
    · obtain ⟨b, hb, h⟩ := withOct_next h
      cases h; right; simp [goto, skip]
    · exact .inl h
  case pUdl =>
    rcases need_next h with ⟨hk, h⟩ | ⟨-, h⟩
    · obtain ⟨b, hb, h⟩ := withOct_next h
      cases h; right; simp [goto, skip]
    · exact .inl h
  case pUd => cases h; right; simp

/-- One walked element: an abort, or `uoff`, `nst` and `phase` only. -/
theorem walkElement_frame {id n s t} (h : walkElement id n s = .next t) :
    t = abort .structuralHeaderError s ∨
    (t.pdu = s.pdu ∧ t.N = s.N ∧ t.err = s.err ∧ t.fb = s.fb ∧ t.txt = s.txt ∧ t.cap = s.cap ∧ t.pad = s.pad ∧
     t.hp = s.hp ∧ t.dcs = s.dcs ∧ t.udl = s.udl ∧ t.ud0 = s.ud0 ∧ t.udn = s.udn ∧ t.thl = s.thl ∧ t.span = s.span ∧
     t.nst = nstAfter id s.nst) := by
  rcases walkElement_next h with ⟨-, rfl⟩ | ⟨-, -, rfl⟩
  · exact .inl rfl
  · right; simp

/-- An operation of `H` aborts with StructuralHeaderError, or leaves all but `uoff`, `phase` and the registers its rule names. -/
theorem header_frame (i : Instr) (s t : State) (h : exec i s = .next t)
    (hi : unitOfInstr i = some .h) :
    t = abort .structuralHeaderError s ∨
    (t.pdu = s.pdu ∧ t.N = s.N ∧ t.err = s.err ∧ t.fb = s.fb ∧ t.txt = s.txt ∧ t.cap = s.cap ∧
     (i ≠ .hPad → t.pad = s.pad) ∧ t.hp = s.hp ∧ t.dcs = s.dcs ∧ t.udl = s.udl ∧ t.ud0 = s.ud0 ∧ t.udn = s.udn ∧
     (i ≠ .hLen → t.thl = s.thl ∧ t.span = s.span) ∧
     (i.wellFormed = true → i ≠ .hLen → i ≠ .hIe → (∀ n, i ≠ .hIeNss n) → t.nst = s.nst)) := by
  cases i <;> simp [unitOfInstr] at hi <;> simp only [exec] at h
  case hLen =>
    unfold execHLen at h
    split at h
    · exact .inl (raise_next h)
    · obtain ⟨b, -, h⟩ := withUd_next h
      split at h
      · exact .inl (raise_next h)
      · cases h; right; simp
  case hIe =>
    unfold execHIe at h
    split at h
    · exact .inl (raise_next h)
    · obtain ⟨b, -, h⟩ := withUd_next h
      obtain ⟨b, -, h⟩ := withUd_next h
      rcases walkElement_frame h with rfl | h
      · exact .inl rfl
      · right; simp [h]
  case hIeNss n => 
      rcases walkElement_frame h with rfl | h
      · exact .inl rfl
      · right; simp [h]
  case hIeOther id n => 
      rcases walkElement_frame h with rfl | h
      · exact .inl rfl
      · right; simp [h, nstAfter, Instr.wellFormed, Config.ieiNssTr]
        intro h1 h2; exact absurd h2 h1
  case hPad => cases h; right; simp

/-- An operation of `U`, `G` or `D` other than D.SEL (R142, R162). -/
theorem payload_frame (i : Instr) (s t : State) (h : exec i s = .next t)
    (hi : unitOfInstr i = some .g ∨ unitOfInstr i = some .d ∨ unitOfInstr i = some .u) (hd : i ≠ .dSel) :
    PayloadFrame s t := by
  cases i <;> simp [unitOfInstr] at hi <;> simp only [exec] at h
  case dSel => exact absurd rfl hd
  case dOct8 => exact execDOct8_frame h
  case dUcs2 => exact execDUcs2_frame h
  case dGsm7 => exact execDGsm7_frame h
  case uInit => cases h; constructor <;> simp
  case uNext => 
    rcases execUNext_next h with ⟨-, rfl⟩ | ⟨-, v, rfl⟩
    · exact PayloadFrame.refl _
    · constructor <;> simp
  case gInit => cases h; constructor <;> simp
  case gEnd => cases h; constructor <;> simp
  case gEsc => cases h; constructor <;> simp
  case gChr v => 
    cases h
    by_cases hv : v.toNat ≤ 127
    · rw [emitBasic_valid hv]; constructor <;> simp
    · rw [emitBasic_invalid (by omega)]; constructor <;> simp
  case gXchr v => 
    unfold execGXchr at h
    split at h
    · cases h; constructor <;> simp
    · cases h
      by_cases hv : v.toNat ≤ 127
      · rw [emitBasic_valid hv]; constructor <;> simp
      · rw [emitBasic_invalid (by omega)]; constructor <;> simp

/-- D.SEL writes `cap`, `bitpos`, `cnt`, `esc` and `phase` only (R226). -/
theorem execDSel_frame {s t : State} (h : execDSel s = .next t) :
    t = { s with cap := t.cap, bitpos := t.bitpos, cnt := t.cnt, esc := t.esc, phase := t.phase } := by
  unfold execDSel at h
  split at h <;> cases h <;> rfl

/-- The operations by unit, D.SEL and DECODE apart. -/
theorem unitOfInstr_cases (i : Instr) :
    unitOfInstr i = some .p ∨ unitOfInstr i = some .h ∨ i = .dSel ∨ i = .wholeDecode ∨
    ((unitOfInstr i = some .g ∨ unitOfInstr i = some .d ∨ unitOfInstr i = some .u) ∧ i ≠ .dSel ∧ i ≠ .wholeDecode) := by
  cases i <;> simp [unitOfInstr]

end Sys2Proof.Machine
end

