-- ==== Sys2Proof/Laws/PerInstr.lean ====
section
/-!
SUPPORT. Statements made per instruction. Family `EncodedWord`: the encoder writes at most two bytes (the longest format
is an element or a selector, R96, R98), and the decoder accepts them at the place the encoder names.
-/

namespace Sys2Proof.Laws.EncodedWord

open Sys2Proof

/-- The encoder's word has at most two bytes and is an operation at its place. -/
def Statement (i : Instr) : Prop := (encode i).2.length ≤ 2 ∧ ∃ j, decode (encode i).1 (encode i).2 = .ok j

theorem pHex : Statement .pHex := ⟨Nat.le_of_ble_eq_true rfl, _, rfl⟩
theorem hexDec (c : Byte) : Statement (.hexDec c) := ⟨Nat.le_of_ble_eq_true rfl, _, rfl⟩
theorem hexUpper (c : Byte) : Statement (.hexUpper c) := ⟨Nat.le_of_ble_eq_true rfl, _, rfl⟩
theorem hexLower (c : Byte) : Statement (.hexLower c) := ⟨Nat.le_of_ble_eq_true rfl, _, rfl⟩
theorem hexBad (c : Byte) : Statement (.hexBad c) := ⟨Nat.le_of_ble_eq_true rfl, _, rfl⟩
theorem pSmsc : Statement .pSmsc := ⟨Nat.le_of_ble_eq_true rfl, _, rfl⟩
theorem pFlags : Statement .pFlags := ⟨Nat.le_of_ble_eq_true rfl, _, rfl⟩
theorem pOa : Statement .pOa := ⟨Nat.le_of_ble_eq_true rfl, _, rfl⟩
theorem pPid : Statement .pPid := ⟨Nat.le_of_ble_eq_true rfl, _, rfl⟩
theorem pDcs : Statement .pDcs := ⟨Nat.le_of_ble_eq_true rfl, _, rfl⟩
theorem pScts : Statement .pScts := ⟨Nat.le_of_ble_eq_true rfl, _, rfl⟩
theorem pUdl : Statement .pUdl := ⟨Nat.le_of_ble_eq_true rfl, _, rfl⟩
theorem pUd : Statement .pUd := ⟨Nat.le_of_ble_eq_true rfl, _, rfl⟩
theorem hLen : Statement .hLen := ⟨Nat.le_of_ble_eq_true rfl, _, rfl⟩
theorem hIe : Statement .hIe := ⟨Nat.le_of_ble_eq_true rfl, _, rfl⟩
theorem hIeNss (n : Byte) : Statement (.hIeNss n) := ⟨Nat.le_of_ble_eq_true rfl, _, rfl⟩
theorem hIeOther (id n : Byte) : Statement (.hIeOther id n) := ⟨Nat.le_of_ble_eq_true rfl, _, rfl⟩
theorem hPad : Statement .hPad := ⟨Nat.le_of_ble_eq_true rfl, _, rfl⟩
theorem dSel : Statement .dSel := ⟨Nat.le_of_ble_eq_true rfl, _, rfl⟩
theorem dOct8 : Statement .dOct8 := ⟨Nat.le_of_ble_eq_true rfl, _, rfl⟩
theorem dUcs2 : Statement .dUcs2 := ⟨Nat.le_of_ble_eq_true rfl, _, rfl⟩
theorem dGsm7 : Statement .dGsm7 := ⟨Nat.le_of_ble_eq_true rfl, _, rfl⟩
theorem uInit : Statement .uInit := ⟨Nat.le_of_ble_eq_true rfl, _, rfl⟩
theorem uNext : Statement .uNext := ⟨Nat.le_of_ble_eq_true rfl, _, rfl⟩
theorem gInit : Statement .gInit := ⟨Nat.le_of_ble_eq_true rfl, _, rfl⟩
theorem gEnd : Statement .gEnd := ⟨Nat.le_of_ble_eq_true rfl, _, rfl⟩
theorem gEsc : Statement .gEsc := ⟨Nat.le_of_ble_eq_true rfl, _, rfl⟩
theorem gChr (v : Byte) : Statement (.gChr v) := ⟨Nat.le_of_ble_eq_true rfl, _, rfl⟩
theorem gXchr (v : Byte) : Statement (.gXchr v) := ⟨Nat.le_of_ble_eq_true rfl, _, rfl⟩
theorem wholeDecode : Statement .wholeDecode := ⟨Nat.le_of_ble_eq_true rfl, _, rfl⟩

end Sys2Proof.Laws.EncodedWord
end

