-- ==== Sys2Proof/Tests/Slice0.lean ====
section
/-!
SUPPORT. The model's own tests: the well-formedness checks, decoding of words written out from the spec's formats, one
step per operation against the vectors of `95_test_vectors.md`, the interface with the host's table words, and for every
obligation with hypotheses a state and operands that meet them.
-/

namespace Sys2Proof.Tests

open Sys2Proof Sys2Proof.Machine

/-- A field of the next state. -/
def after {α : Type} (r : Result) (f : State → α) : Option α :=
  match r with
  | .next t => some (f t)
  | .fault _ => none
  | .refused _ => none

/-- The parser at octet `pos` of a string of these octets. -/
def atOctet (p : Phase) (pos : Nat) (bs : List Byte) : State := { loadOctets bs State.reset with phase := p, pos := pos }

/-- User data of these octets, the header of `span` octets, the cursor at `bitpos`. -/
def atPayload (bs : List Byte) (span bitpos : Nat) : State :=
  { loadUserData bs State.reset with span := span, bitpos := bitpos }

/-- The walk at octet `uoff` of a header of `span` octets. -/
def atElement (bs : List Byte) (span uoff : Nat) : State :=
  { loadUserData bs State.reset with span := span, uoff := uoff, hp := true, phase := .udhIe }

/-- A 7-bit payload, started. -/
def at7 (bs : List Byte) (p : BitVec 3) (cap : Nat) : State :=
  { loadUserData bs State.reset with pad := p, bitpos := p.toNat, cap := cap, phase := .pay7 }

/-! Well-formedness: each check refuses a term outside the row's pattern (R91, R96, R98). -/

theorem test_wf_dec : (Instr.hexDec 0x3A).wellFormed = false := by decide
theorem test_wf_upper : (Instr.hexUpper 0x47).wellFormed = false := by decide
theorem test_wf_lower : (Instr.hexLower 0x60).wellFormed = false := by decide
theorem test_wf_bad : (Instr.hexBad 0x61).wellFormed = false := by decide
theorem test_wf_other : (Instr.hIeOther 0x24 3).wellFormed = false := by decide
theorem test_wf_chr_end : (Instr.gChr 0x00).wellFormed = false := by decide
theorem test_wf_chr_esc : (Instr.gChr 0x1B).wellFormed = false := by decide

/-! Decoding, the words written out from the formats of `30_encoding.md`. -/

/-- R91: one character, by class. -/
theorem test_decode_hexch :
    decode .hexChar [0b00110111#8] = .ok (.hexDec 0x37) ∧ decode .hexChar [0b01000001#8] = .ok (.hexUpper 0x41) ∧
    decode .hexChar [0b01100110#8] = .ok (.hexLower 0x66) ∧ decode .hexChar [0b01000111#8] = .ok (.hexBad 0x47) := by
  decide

/-- R92, R93: the eight fields and the check before them, by position. -/
theorem test_decode_pdu :
    decode .hexString [] = .ok .pHex ∧ decode .smsc [0b00000111#8] = .ok .pSmsc ∧
    decode .flags [0b01000100#8] = .ok .pFlags ∧ decode .oa [0b00001011#8] = .ok .pOa ∧
    decode .pid [0b00000000#8] = .ok .pPid ∧ decode .dcs [0b00001000#8] = .ok .pDcs ∧
    decode .scts [0b01000010#8] = .ok .pScts ∧ decode .udl [0b00000101#8] = .ok .pUdl ∧ decode .ud [] = .ok .pUd := by
  decide

/-- R95, R96: the header. -/
theorem test_decode_header :
    decode .udhLen [0b00000101#8] = .ok .hLen ∧ decode .udhElem [] = .ok .hIe ∧
    decode .udhElem [0b00100100#8, 0b00000011#8] = .ok (.hIeNss 3) ∧
    decode .udhElem [0b00000000#8, 0b00000011#8] = .ok (.hIeOther 0 3) ∧ decode .udhPad [] = .ok .hPad := by
  decide

/-- R94: V-D2, V-D4, V-D6, V-D8, V-D10, V-D1, V-D5, V-D7. -/
theorem test_decode_mode :
    decode .dispatch [] = .ok .dSel ∧ decode .mode [0x04] = .ok .dOct8 ∧ decode .mode [0x0C] = .ok .dOct8 ∧
    decode .mode [0xF4] = .ok .dOct8 ∧ decode .mode [0x1B] = .ok .dUcs2 ∧ decode .mode [0xFB] = .ok .dUcs2 ∧
    decode .mode [0x00] = .ok .dGsm7 ∧ decode .mode [0xF0] = .ok .dGsm7 ∧ decode .mode [0x11] = .ok .dGsm7 := by
  decide

/-- R98: the four selector patterns; R132, R133, R151, R238: the rows without a word. -/
theorem test_decode_septet :
    decode .septet [0b00000000#8, 0b0#8] = .ok .gEnd ∧ decode .septet [0b00011011#8, 0b0#8] = .ok .gEsc ∧
    decode .septet [0b01100101#8, 0b0#8] = .ok (.gChr 0x65) ∧ decode .septet [0b00011011#8, 0b1#8] = .ok (.gXchr 0x1B) ∧
    decode .unpackInit [] = .ok .uInit ∧ decode .unpackNext [] = .ok .uNext ∧ decode .decoderInit [] = .ok .gInit ∧
    decode .start [] = .ok .wholeDecode := by decide

/-- A word of another format is rejected by name. -/
theorem test_decode_rejects :
    decode .hexChar [] = .error .tooShort ∧ decode .udhElem [1, 2, 3] = .error .tooLong ∧
    decode .septet [0x41, 2] = .error .selectorOutOfRange := by decide

/-! Table words: the rows with fixed bits, decoded, and run by the next step (log 15, log 21). -/

/-- Decode a table word and run it as the first operation after reset: the step is the operation's own effect. -/
theorem test_fetch_oct8 : decodeTableWord 8 0x04 = some .dOct8 ∧
    after (step (State.reset.withFetchWord 8 0x04)) (fun t => (t.txt, t.phase)) = some ([0x00], .done) := by decide
theorem test_fetch_ucs2 : decodeTableWord 8 0x08 = some .dUcs2 ∧
    after (step (State.reset.withFetchWord 8 0x08)) (fun t => (t.txt, t.phase)) = some ([0x0000], .done) := by decide
theorem test_fetch_gsm7 : decodeTableWord 8 0x00 = some .dGsm7 ∧
    after (step (State.reset.withFetchWord 8 0x00)) (fun t => (t.txt, t.phase, t.cnt)) = some ([], .done, 1) := by decide
theorem test_fetch_nss : decodeTableWord 16 0x0024 = some (.hIeNss 0) ∧
    after (step (State.reset.withFetchWord 16 0x0024)) (fun t => (t.nst, t.uoff)) = some (true, 3) := by decide
theorem test_fetch_end : decodeTableWord 16 0x000 = some .gEnd ∧
    after (step (State.reset.withFetchWord 16 0x000)) (fun t => (t.txt, t.phase)) = some ([], .done) := by decide
theorem test_fetch_esc : decodeTableWord 16 0x01B = some .gEsc ∧
    after (step (State.reset.withFetchWord 16 0x01B)) (fun t => (t.txt, t.esc)) = some ([], true) := by decide
theorem test_fetch_chr : decodeTableWord 16 0x048 = some (.gChr 0x48) ∧
    after (step (State.reset.withFetchWord 16 0x048)) (fun t => (t.txt, t.esc)) = some ([0x48], false) := by decide
theorem test_fetch_xchr : decodeTableWord 16 0x165 = some (.gXchr 0x65) ∧
    after (step (State.reset.withFetchWord 16 0x165)) (fun t => (t.txt, t.esc)) = some ([0x65], false) := by decide

/-! One step per operation. -/

/-- V-P2, V-P5: an even count of digits of either case passes, an odd count does not. -/
theorem test_pHex : after (exec .pHex { State.reset with pdu := Mem.store [] 0 [0x30, 0x61, 0x46, 0x39], N := 4 })
    (fun t => (t.pos, t.phase, t.err)) = some (0, .fSmsc, .ok) := by decide
theorem test_pHex_odd : after (exec .pHex { State.reset with pdu := Mem.store [] 0 [0x30, 0x61, 0x46], N := 3 })
    (fun t => t.err) = some .malformedInput := by decide
theorem test_hexDec : hexVal 0x39 = some 9 ∧ after (exec (.hexDec 0x39) State.reset) (fun t => t) = some State.reset := by decide
theorem test_hexUpper : hexVal 0x46 = some 15 ∧ after (exec (.hexUpper 0x46) State.reset) (fun t => t) = some State.reset := by decide
theorem test_hexLower : hexVal 0x61 = some 10 ∧ after (exec (.hexLower 0x61) State.reset) (fun t => t) = some State.reset := by decide
/-- V-P4: `G`. -/
theorem test_hexBad : hexVal 0x47 = none ∧ after (exec (.hexBad 0x47) State.reset) (fun t => (t.err, t.phase)) =
    some (.malformedInput, .done) := by decide
/-- V-P1: seven SMSC octets. -/
theorem test_pSmsc : after (exec .pSmsc (atOctet .fSmsc 0 [7, 0x91, 9, 0x45, 0x12, 0x32, 0x54, 0xF6]))
    (fun t => (t.pos, t.phase, t.err)) = some (8, .fFlags, .ok) := by decide
/-- V-P6: a length that the string does not hold. -/
theorem test_pSmsc_short : after (exec .pSmsc (atOctet .fSmsc 0 [0xFF, 4, 0])) (fun t => (t.err, t.txt)) =
    some (.malformedInput, []) := by decide
/-- V-P11, V-P12: only bit 6 matters. -/
theorem test_pFlags : after (exec .pFlags (atOctet .fFlags 0 [0xFB])) (fun t => (t.hp, t.pos)) = some (true, 1) := by decide
theorem test_pFlags_clear : after (exec .pFlags (atOctet .fFlags 0 [0xBF])) (fun t => t.hp) = some false := by decide
/-- V-P1: eleven digits are six octets. P8: no digits, the type octet still skipped. -/
theorem test_pOa : after (exec .pOa (atOctet .fOa 0 [11, 0x91, 9, 0x45, 0x67, 0x89, 1, 0xF2])) (fun t => (t.pos, t.phase)) =
    some (8, .fPid) := by decide
theorem test_pOa_none : after (exec .pOa (atOctet .fOa 0 [0, 0x81])) (fun t => (t.pos, t.err)) = some (2, .ok) := by decide
theorem test_pPid : after (exec .pPid (atOctet .fPid 1 [0, 0])) (fun t => (t.pos, t.phase)) = some (2, .fDcs) := by decide
theorem test_pDcs : after (exec .pDcs (atOctet .fDcs 0 [0xF4])) (fun t => (t.dcs, t.phase)) = some (0xF4, .fScts) := by decide
/-- V-P1: 19 to 26; six octets are too few. -/
theorem test_pScts : after (exec .pScts (atOctet .fScts 0 [0x42, 0x11, 1, 0x21, 3, 0x54, 0x80])) (fun t => (t.pos, t.phase)) =
    some (7, .fUdl) := by decide
theorem test_pScts_short : after (exec .pScts (atOctet .fScts 0 [0x42, 0x11, 1, 0x21, 3, 0x54])) (fun t => t.err) =
    some .malformedInput := by decide
theorem test_pUdl : after (exec .pUdl (atOctet .fUdl 0 [13])) (fun t => (t.udl, t.phase)) = some (13, .fUd) := by decide
theorem test_pUd : after (exec .pUd { atOctet .fUd 2 [0, 0, 0x48, 0x69, 0xFF] with hp := true })
    (fun t => (t.ud0, t.udn, t.phase)) = some (2, 3, .udhLen) := by decide
/-- V-H1, V-H5. -/
theorem test_hLen : after (exec .hLen (atPayload [5, 0x24, 3, 1, 2, 3, 0x41, 0x42] 0 0))
    (fun t => (t.thl, t.span, t.uoff, t.phase)) = some (5, 6, 1, .udhIe) := by decide
theorem test_hLen_short : after (exec .hLen (atPayload [5, 0x24, 3, 1] 0 0)) (fun t => (t.err, t.fb)) =
    some (.structuralHeaderError, false) := by decide
/-- V-H1, V-H7 (the lone identifier at offset 6). -/
theorem test_hIe : after (exec .hIe (atElement [5, 0x24, 3, 1, 2, 3, 0x41, 0x42] 6 1))
    (fun t => (t.uoff, t.nst, t.phase)) = some (6, true, .udhPad) := by decide
theorem test_hIe_lone : after (exec .hIe (atElement [6, 0x24, 3, 1, 2, 3, 0, 0x42] 7 6)) (fun t => t.err) =
    some .structuralHeaderError := by decide
/-- V-H8, V-H11. -/
theorem test_hIeNss : after (exec (.hIeNss 0) (atElement [2, 0x24, 0] 3 1)) (fun t => (t.uoff, t.nst)) =
    some (3, true) := by decide
theorem test_hIeNss_long : after (exec (.hIeNss 3) (atElement [4, 0x24, 3, 1, 1, 1, 0x41] 5 1)) (fun t => t.err) =
    some .structuralHeaderError := by decide
/-- V-H6, V-H13. -/
theorem test_hIeOther : after (exec (.hIeOther 0 3) (atElement [5, 0, 3, 1, 2, 3, 0x41, 0x42] 6 1))
    (fun t => (t.uoff, t.nst, t.phase)) = some (6, false, .udhPad) := by decide
theorem test_hIeOther_more : after (exec (.hIeOther 0 0) (atElement [4, 0, 0, 0x24, 0] 5 1))
    (fun t => (t.uoff, t.phase)) = some (3, .udhIe) := by decide
/-- V-H12: 1 for a span of 6, 3 for a span of 256. -/
theorem test_hPad : after (exec .hPad { State.reset with span := 6 }) (fun t => (t.pad, t.phase)) = some (1, .dispatch) := by decide
theorem test_hPad_long : after (exec .hPad { State.reset with span := 256 }) (fun t => t.pad) = some 3 := by decide
/-- V-D4: bit 0x04 is tested first. V-D12: the count of a 7-bit payload. -/
theorem test_dSel : after (exec .dSel { State.reset with dcs := 0x0C }) (fun t => t.phase) = some .pay8 := by decide
theorem test_dSel_gsm7 : after (exec .dSel { State.reset with udl := 13, span := 6, pad := 1 })
    (fun t => (t.cap, t.bitpos, t.cnt, t.phase)) = some (7, 1, 0, .pay7) := by decide
/-- V-D40, P8: 0xFF is U+00FF, a zero octet is U+0000 and no sentinel. -/
theorem test_dOct8 : after (exec .dOct8 { atPayload [0x48, 0xFF] 0 1 with phase := .pay8 })
    (fun t => (t.txt, t.phase, t.fb)) = some ([0xFF], .done, false) := by decide
theorem test_dOct8_zero : after (exec .dOct8 { atPayload [0x00, 0xFF] 0 0 with phase := .pay8 })
    (fun t => (t.txt, t.phase, t.bitpos)) = some ([0], .pay8, 1) := by decide
/-- V-D22, V-D24. -/
theorem test_dUcs2 : after (exec .dUcs2 { atPayload [0xD8, 0x3D, 0xDE, 0x00] 0 0 with phase := .payU })
    (fun t => (t.txt, t.fb, t.phase)) = some ([0x1F600], false, .done) := by decide
theorem test_dUcs2_unpaired : after (exec .dUcs2 { atPayload [0xD8, 0x3D, 0x00, 0x41] 0 0 with phase := .payU })
    (fun t => (t.txt, t.fb, t.bitpos)) = some ([0xFFFD], true, 2) := by decide
/-- X5 (padding 0), P10 (the sentinel inside the text). -/
theorem test_dGsm7 : after (exec .dGsm7 (at7 [0xC8, 0x32, 0x9B, 0xFD, 0x06] 0 5))
    (fun t => (t.txt, t.cnt, t.bitpos, t.phase)) = some ([0x48, 0x65, 0x6C, 0x6C, 0x6F], 5, 35, .done) := by decide
theorem test_dGsm7_sentinel : after (exec .dGsm7 (at7 [0x48, 0x40, 0x1A] 0 3))
    (fun t => (t.txt, t.cnt, t.bitpos)) = some ([0x48], 2, 14) := by decide
theorem test_uInit : after (exec .uInit { State.reset with pad := 3, cnt := 9 }) (fun t => (t.bitpos, t.cnt)) =
    some (3, 0) := by decide
/-- V-U9 (the first bit is the least significant), V-U8 (six bits are no septet). -/
theorem test_uNext : after (exec .uNext { at7 [0x80] 1 1 with phase := .idle }) (fun t => (t.port, t.bitpos, t.cnt)) =
    some (some 0x40, 8, 1) := by decide
theorem test_uNext_exhausted : after (exec .uNext (at7 [0xFF] 2 9)) (fun t => (t.port, t.bitpos, t.cnt)) =
    some (none, 2, 0) := by decide
theorem test_gInit : after (exec .gInit { State.reset with esc := true }) (fun t => t.esc) = some false := by decide
theorem test_gEnd : after (exec .gEnd State.reset) (fun t => (t.txt, t.phase, t.done)) = some ([], .done, true) := by decide
theorem test_gEsc : after (exec .gEsc State.reset) (fun t => (t.txt, t.esc)) = some ([], true) := by decide
/-- V-G21, V-G13. -/
theorem test_gChr : after (exec (.gChr 0x01) State.reset) (fun t => (t.txt, t.fb)) = some ([0xA3], false) := by decide
theorem test_gChr_out : after (exec (.gChr 200) State.reset) (fun t => (t.txt, t.fb)) = some ([0x3F], true) := by decide
/-- V-G10, V-G9: the shift table only when it is enabled. -/
theorem test_gXchr : after (exec (.gXchr 0x28) { State.reset with nst := true, esc := true }) (fun t => (t.txt, t.esc)) =
    some ([0x7B], false) := by decide
theorem test_gXchr_basic : after (exec (.gXchr 0x28) { State.reset with esc := true }) (fun t => (t.txt, t.esc)) =
    some ([0x28], false) := by decide
/-- V-P9 (the empty string). -/
theorem test_decode_empty : after (exec .wholeDecode State.reset) (fun t => (t.err, t.txt, t.done)) =
    some (.malformedInput, [], true) := by decide
/-- `00 04 00 81 00 08`, timestamp, `02 0048`: one UCS-2 unit. -/
theorem test_decode_ucs2 :
    after (exec .wholeDecode (loadOctets [0, 4, 0, 0x81, 0, 8, 0x42, 0x11, 1, 0x21, 3, 0x54, 0x80, 2, 0, 0x48] State.reset))
      (fun t => (t.err, t.txt, t.done)) = some (.ok, [0x48], true) := by decide

/-! Witnesses: for every obligation with hypotheses, states and operands that meet them, clause by clause. -/

theorem wit_Reset : (hostReset State.reset).resetIn = true := by decide
theorem wit_Start : (hostStart State.reset).resetIn = false ∧ (hostStart State.reset).busy = false ∧
    (hostStart State.reset).startIn = true := by decide
theorem wit_StartWhileRunning : (atOctet .fSmsc 0 [0]).resetIn = false ∧ (atOctet .fSmsc 0 [0]).busy = true := by decide
/-- A finished decode. -/
def finished : State := { State.reset with phase := .done, done := true, err := .structuralHeaderError }
/-- In DONE, in IDLE, and with a reset waiting. -/
theorem wit_ResultStays : (∀ s ∈ [finished, State.reset], s.busy = false ∧ s.resetIn = false ∧ s.startIn = false) ∧
    (hostReset State.reset).busy = false ∧ (hostReset State.reset).startIn = false := by decide
theorem finished_inv : finished.Inv := ⟨rfl, by decide, rfl, rfl, by unfold State.Fits; decide, fun _ => ⟨rfl, rfl⟩⟩
/-- With no event waiting, and with a start waiting. -/
theorem wit_StatusByteLayout : finished.Inv ∧ finished.done = true ∧ (hostStart finished).Inv ∧ (hostStart finished).done = true :=
  ⟨finished_inv, rfl, finished_inv, rfl⟩
/-- A finished decode with a text. -/
def withText : State := { State.reset with phase := .done, done := true, txt := [0x48] }
theorem wit_HostReads : withText.Inv ∧ withText.done = true ∧ withText.txt[0]? = some 0x48 ∧ finished.err ≠ .ok :=
  ⟨⟨rfl, by decide, rfl, rfl, by unfold State.Fits; decide, fun h => absurd rfl h⟩, rfl, rfl, by decide⟩
/-- Both ends of each range of HEXCH, and the codes beside them. -/
theorem wit_HexCharacters :
    (∀ c ∈ [0x30, 0x39], (Instr.hexDec c).wellFormed = true) ∧ (∀ c ∈ [0x41, 0x46], (Instr.hexUpper c).wellFormed = true) ∧
    (∀ c ∈ [0x61, 0x66], (Instr.hexLower c).wellFormed = true) ∧
    (∀ c ∈ [0x00, 0x2F, 0x3A, 0x40, 0x47, 0x60, 0x67, 0xFF], (Instr.hexBad c).wellFormed = true) := by decide
theorem wit_HexCheck :
    (atOctet .hexchk 0 [0xAF]).HexOk ∧ ({ State.reset with N := 3 } : State).N % 2 = 1 ∧
    (∃ i < ({ State.reset with N := 2 } : State).N, hexVal (({ State.reset with N := 2 } : State).chr i) = none) := by
  unfold State.HexOk; decide
/-- No octet; a length octet at its limit; one octet too few. -/
theorem wit_Smsc :
    (atOctet .fSmsc 0 []).M < 0 + 1 ∧ (atOctet .fSmsc 0 [1, 0]).oct? 0 = some 1 ∧ 0 + 1 + 1 ≤ (atOctet .fSmsc 0 [1, 0]).M ∧
    (atOctet .fSmsc 0 [2, 0]).oct? 0 = some 2 ∧ (atOctet .fSmsc 0 [2, 0]).M < 0 + 1 + 2 := by decide
theorem wit_Flags : (atOctet .fFlags 1 [0]).M < 1 + 1 ∧ (atOctet .fFlags 0 [0x40]).oct? 0 = some 0x40 := by decide
theorem wit_Oa :
    (atOctet .fOa 0 []).M < 0 + 1 ∧ (atOctet .fOa 0 [0]).oct? 0 = some 0 ∧ (atOctet .fOa 0 [0]).M < 0 + 2 ∧
    (atOctet .fOa 0 [1, 0]).oct? 0 = some 1 ∧ (atOctet .fOa 0 [1, 0]).M < 0 + 2 + (1 + 1) / 2 ∧
    0 + 2 + (1 + 1) / 2 ≤ (atOctet .fOa 0 [1, 0, 0]).M := by decide
theorem wit_PidScts :
    (atOctet .fPid 0 []).M < 0 + 1 ∧ 0 + 1 ≤ (atOctet .fPid 0 [0]).M ∧
    (atOctet .fScts 0 [0, 0, 0, 0, 0, 0]).M < 0 + 7 ∧ 0 + 7 ≤ (atOctet .fScts 0 [0, 0, 0, 0, 0, 0, 0]).M := by decide
theorem wit_DcsUdl : (atOctet .fDcs 0 []).M < 0 + 1 ∧ (atOctet .fDcs 0 [0xFF]).oct? 0 = some 0xFF := by decide
/-- A string of two characters that are no digits, as one octet of user data. -/
def unreadable : State := { State.reset with N := 2, udn := 1 }
theorem wit_ReadsOutside :
    (unreadable.pos + 1 ≤ unreadable.M ∧ unreadable.oct? unreadable.pos = none) ∧
    (unreadable.udn ≠ 0 ∧ unreadable.ud? 0 = none) ∧
    (∃ s : State, s.uoff + 1 < s.span ∧ s.ud? s.uoff = none) ∧
    (∃ s : State, s.uoff + 1 < s.span ∧ s.ud? s.uoff = some 5 ∧ s.ud? (s.uoff + 1) = none) ∧
    (unreadable.bitpos < unreadable.payLen ∧ unreadable.pay? unreadable.bitpos = none) ∧
    (∃ s : State, s.bitpos + 1 < s.payLen ∧ s.pay? s.bitpos = some 5 ∧ s.pay? (s.bitpos + 1) = none) ∧
    (∃ s : State, s.bitpos + 3 < s.payLen ∧ s.pay? s.bitpos = some 0xD8 ∧ s.pay? (s.bitpos + 1) = some 0 ∧
      isHighSurrogate (unitOf 0xD8 0) = true ∧ s.pay? (s.bitpos + 2) = none) ∧
    (unpackEnabled { unreadable with cap := 1 } = true ∧
      ({ unreadable with cap := 1 } : State).pay? (unreadable.bitpos / 8) = none ∧ unreadable.port = none) := by
  refine ⟨by decide, by decide, ⟨{ unreadable with span := 2 }, by decide⟩, ⟨{ atPayload [5] 2 0 with udn := 2 }, by decide⟩,
    by decide, ⟨{ atPayload [5] 0 0 with udn := 2 }, by decide⟩, ⟨{ atPayload [0xD8, 0] 0 0 with udn := 4 }, by decide⟩, by decide⟩
theorem wit_HLen :
    State.reset.udn = 0 ∧ (atPayload [0] 0 0).ud? 0 = some 0 ∧ 0 + 1 ≤ (atPayload [0] 0 0).udn ∧
    (atPayload [1] 0 0).ud? 0 = some 1 ∧ (atPayload [1] 0 0).udn < 1 + 1 := by decide
/-- A lone identifier; an element that ends at the header's end, and one octet beyond it. -/
theorem wit_Walk :
    (0x05 : Byte) ≠ 0x24 ∧ (atElement [] 2 1).span ≤ 1 + 1 ∧ (atElement [] 4 1).span < 1 + 2 + (2 : Byte).toNat ∧
    1 + 1 < (atElement [] 4 1).span ∧ 1 + 2 + (1 : Byte).toNat ≤ (atElement [] 4 1).span := by decide
theorem wit_Element :
    (atElement [1, 0x24] 2 1).span ≤ 1 + 1 ∧
    (let s := atElement [3, 0x24, 1, 9] 4 1
     s.uoff + 1 < s.span ∧ s.ud? s.uoff = some 0x24 ∧ s.ud? (s.uoff + 1) = some 1 ∧ s.uoff + 2 + 1 ≤ s.span) ∧
    (let s := atElement [3, 0x23, 2, 9] 4 1
     s.uoff + 1 < s.span ∧ s.ud? s.uoff = some 0x23 ∧ s.ud? (s.uoff + 1) = some 2 ∧ s.span < s.uoff + 2 + 2) := by decide
theorem wit_DSel :
    ((0x0C : Byte) &&& 0x04 ≠ 0) ∧ ((0xFB : Byte) &&& 0x04 = 0 ∧ (0xFB : Byte) &&& 0x0C = 0x08) ∧
    ((0xF3 : Byte) &&& 0x04 = 0 ∧ (0xF3 : Byte) &&& 0x0C ≠ 0x08) := by decide
theorem wit_Oct8 : (atPayload [0, 0xFF] 1 0).bitpos < (atPayload [0, 0xFF] 1 0).payLen ∧
    (atPayload [0, 0xFF] 1 0).pay? 0 = some 0xFF := by decide
/-- A left-over octet. -/
theorem wit_Ucs2_octet : (atPayload [0] 0 0).bitpos + 1 = (atPayload [0] 0 0).payLen := by decide
/-- The first octets of a payload of these octets. -/
def firstOctets (bs : List Byte) : List (Option Byte) :=
  let s := atPayload bs 0 0
  (List.range s.payLen).map s.pay?
/-- Units at the ends of each range, with nothing after them. -/
theorem wit_Ucs2_plain : firstOctets [0xD7, 0xFF] = [some 0xD7, some 0xFF] ∧ firstOctets [0xE0, 0] = [some 0xE0, some 0] := by
  decide
theorem wit_Ucs2_low : firstOctets [0xDC, 0] = [some 0xDC, some 0] ∧ firstOctets [0xDF, 0xFF] = [some 0xDF, some 0xFF] := by
  decide
theorem wit_Ucs2_high : firstOctets [0xD8, 0] = [some 0xD8, some 0] ∧ firstOctets [0xDB, 0xFF] = [some 0xDB, some 0xFF] := by
  decide
/-- A high surrogate before a low one, and before units beside the low range. -/
theorem wit_Ucs2_pair : firstOctets [0xD8, 0, 0xDC, 0] = [some 0xD8, some 0, some 0xDC, some 0] := by decide
theorem wit_Ucs2_pair_top : firstOctets [0xDB, 0xFF, 0xDF, 0xFF] = [some 0xDB, some 0xFF, some 0xDF, some 0xFF] := by decide
theorem wit_Ucs2_unpaired : firstOctets [0xD8, 0, 0xDB, 0xFF] = [some 0xD8, some 0, some 0xDB, some 0xFF] := by decide
theorem wit_Ucs2_above : firstOctets [0xD8, 0, 0xE0, 0] = [some 0xD8, some 0, some 0xE0, some 0] := by decide
theorem wit_Gsm7 :
    let s := at7 [0xC8, 0x32] 1 2
    let B : List Byte := [0xC8, 0x32]
    s.port = none ∧ s.capValid = true ∧ s.bitpos = s.pad.toNat ∧ s.cnt = 0 ∧ s.esc = false ∧ B.length = s.payLen ∧
    ∀ i < s.payLen, s.pay? i = B[i]? := by decide
/-- With and without a cap, exactly seven bits left; six bits left; the cap reached. -/
theorem wit_UNext :
    ((∀ k < (at7 [0xFF] 1 1).udn, ((at7 [0xFF] 1 1).ud? k).isSome = true) ∧ (at7 [0xFF] 1 1).span ≤ (at7 [0xFF] 1 1).udn) ∧
    (at7 [0xFF] 1 1).bitpos + 7 ≤ 8 * (at7 [0xFF] 1 1).payLen ∧ (at7 [0xFF] 1 1).cnt < (at7 [0xFF] 1 1).cap ∧
    ({ at7 [0xFF] 1 0 with capValid := false } : State).capValid = false ∧
    8 * (at7 [0xFF] 2 1).payLen < (at7 [0xFF] 2 1).bitpos + 7 ∧
    ((at7 [0xFF] 1 0).capValid = true ∧ (at7 [0xFF] 1 0).cap ≤ (at7 [0xFF] 1 0).cnt) := by decide
theorem wit_Shifts : (0 < 8 ∧ 0 ≤ 1) ∧ (1 < 8 ∧ 1 ≤ 1) ∧ (2 < 8 ∧ 2 ≤ 2) ∧ (7 < 8 ∧ 2 ≤ 7) := by decide
/-- V-U11: the last bit is never read. -/
theorem wit_UnpackTail : [0x41#8].length = [0xC1#8].length ∧
    ∀ i, 0 ≤ i → i < 0 + 7 * unpackCount 1 0 none → bitAt [0x41] i = bitAt [0xC1] i := by
  have h : ∀ i < 0 + 7 * unpackCount 1 0 none, bitAt [0x41] i = bitAt [0xC1] i := by decide
  exact ⟨rfl, fun i _ hi => h i hi⟩
theorem wit_PackTail : ∀ i ∈ [1, 7], 1 ≤ i ∧ i < 1 + 7 * unpackCount [0xFE#8].length 1 none := by decide
theorem wit_GChr : (∀ v ∈ [0x01, 0x1A, 0x1C, 127], (Instr.gChr v).wellFormed = true ∧ v.toNat ≤ 127) ∧
    (∀ v ∈ [128, 255], (Instr.gChr v).wellFormed = true ∧ 127 < v.toNat) := by decide
theorem wit_GXchr : (∃ s : State, s.nst = true ∧ Config.tables.nst 0x65 = some 0x11F) ∧ State.reset.nst = false ∧
    (∃ s : State, s.nst = true ∧ Config.tables.nst 0x80 = none) ∧ (0 : Byte).toNat ≤ 127 ∧ 127 < (0x80 : Byte).toNat :=
  ⟨⟨{ State.reset with nst := true }, by decide⟩, rfl, ⟨{ State.reset with nst := true }, by decide⟩, by decide, by decide⟩
theorem wit_Select : ∀ v ∈ [0x00, 0x1B, 0x41], ∀ e ∈ [false, true],
    let s := { State.reset with phase := .pay7, port := some v, esc := e }
    s.phase = .pay7 ∧ s.resetIn = false ∧ s.port = some v ∧ s.esc = e := by decide
theorem wit_Feed : (at7 [] 0 0).phase = .pay7 := rfl
/-- A pending escape, the supply used up; the cap reached. -/
theorem wit_Exhaustion :
    (let s := { at7 [0xFF] 2 9 with esc := true }
     s.phase = .pay7 ∧ s.resetIn = false ∧ s.port = none ∧ 8 * s.payLen < s.bitpos + 7) ∧
    (let s := at7 [0xFF] 0 0
     s.capValid = true ∧ s.cap ≤ s.cnt) := by decide
theorem wit_EscapedSpecial : (0x00 : Byte) = 0x00 ∨ (0x00 : Byte) = 0x1B := .inl rfl
/-- An odd string and a string with a character that is no digit have no octets; the first character is the high nibble. -/
theorem wit_ParseNone : octetsOf [0x30] = none ∧ octetsOf [0x30, 0x47] = none ∧ octetsOf [0x34, 0x38] = some [0x48] := by decide
/-- V-P9 and V-P7: the empty string; the shortest that parses, exactly at the bound. -/
theorem wit_Parse : octetsOf [] = some [] ∧ ([] : List Byte).length < 0 + 14 + 0 ∧
    octetsOf (List.replicate 28 0x30) = some (List.replicate 14 0) ∧ 0 + 14 + 0 ≤ (List.replicate 14 (0 : Byte)).length := by
  decide
/-- V-H13. -/
theorem wit_Elements : scanUdh [4, 0, 0, 0x24, 0] = some { thl := 4, span := 5, nst := true, pad := 2 } := by decide
theorem wit_ScanIgnores : [0x24#8, 0x00#8].length = (0x02 : Byte).toNat := by decide
theorem wit_Decode : State.reset.busy = false ∧ finished.busy = false := by decide
theorem wit_StepsFromStart : (hostStart finished).busy = false ∧ (hostStart finished).resetIn = false ∧
    (hostStart finished).startIn = true := by decide
theorem wit_NoStateCrosses : State.reset.busy = false ∧ finished.busy = false ∧ State.reset.N = finished.N ∧
    ∀ i < State.reset.N, State.reset.chr i = finished.chr i := by decide
/-- `00 04 00 81 00 08`, timestamp, `01 00`: a left-over octet in UCS-2 mode. -/
theorem wit_Fallback : (decodePdu Config.tables
    ([0, 4, 0, 0x81, 0, 8, 0x42, 0x11, 1, 0x21, 3, 0x54, 0x80, 1, 0].flatMap hexChars)).fb = true := by decide
theorem wit_StepRuns :
    (let s := atOctet .fSmsc 0 [7]
     s.resetIn = false ∧ s.busy = true ∧ s.phase ≠ .pay7 ∧ decode (placeOf s.phase) (wordAt s) = .ok .pSmsc) ∧
    (let s := { at7 [] 0 0 with port := some 0x41 }
     s.busy = true ∧ s.phase = .pay7 ∧ s.port = some 0x41 ∧ decode .septet (septWord s.esc 0x41) = .ok (.gChr 0x41)) ∧
    (let s := at7 [0xC8] 0 1
     s.busy = true ∧ s.phase = .pay7 ∧ s.port = none ∧ unpackEnabled s = true ∧
     after (exec .uNext (ignoreStart s)) (fun t => (t.port, decode .septet (septWord t.esc 0x48))) =
       some (some 0x48, .ok (.gChr 0x48))) := by decide
/-- The check of an odd string, and of the empty one. -/
def checking (n : Nat) : State := { State.reset with N := n, phase := .hexchk }
theorem checking_inv (n : Nat) : (checking n).Inv :=
  ⟨rfl, ⟨nofun, nofun⟩, rfl, rfl,
    ⟨Nat.two_pow_pos 9, Nat.two_pow_pos 9, Nat.two_pow_pos 9, Nat.two_pow_pos 9⟩, ⟨rfl, rfl, rfl⟩,
    rfl, rfl, rfl, rfl, rfl, rfl, rfl, rfl, rfl⟩
theorem wit_StepInv : ∃ s t : State, s.Inv ∧ s.busy = true ∧ s.resetIn = false ∧ step s = .next t :=
  ⟨checking 0, _, checking_inv 0, rfl, rfl, rfl⟩
theorem wit_Aborts : ∃ s t : State, s.Inv ∧ s.busy = true ∧ s.resetIn = false ∧ step s = .next t ∧ t.err ≠ .ok :=
  ⟨checking 1, abort .malformedInput (checking 1), checking_inv 1, rfl, rfl, rfl, by decide⟩
theorem wit_HostInv : finished.Inv ∧ (hostLoad [0x30] finished).isSome = true ∧
    (hostWriteChar 3 0x30 finished).isSome = true ∧ (hostWriteLength 3 finished).isSome = true ∧
    finished.busy = false ∧ finished.startIn = false ∧ (hostStart finished).startIn = true ∧ (checking 1).busy = true :=
  ⟨finished_inv, by decide⟩
/-- R296, R297: what is loaded is what is read; once start is given the input is closed. -/
theorem test_hostLoad : (hostLoad [0x34, 0x38] State.reset).map State.chars = some [0x34, 0x38] ∧
    hostLoad [0x34] (hostStart State.reset) = none ∧ hostWriteChar 0 0x34 (hostStart finished) = none ∧
    hostWriteLength 1 (hostStart finished) = none := by decide
theorem wit_Input : exec .uInit State.reset = .next (unpackInit State.reset) := rfl
theorem wit_Units : unitOfInstr .pUd = some .p ∧ unitOfInstr .hPad = some .h ∧ unitOfInstr .uInit = some .u ∧
    unitOfInstr .gInit = some .g ∧ unitOfInstr .dSel = some .d ∧
    (∀ i ∈ [Instr.pUd, .hPad, .uInit, .gInit, .dSel], (after (exec i State.reset) fun _ => ()) = some ()) := by decide
theorem wit_Emit : Instr.gChr 0x41 ≠ .wholeDecode ∧ emitsText (.gChr 0x41) = true ∧ emitsText .uInit = false ∧
    (after (exec (.gChr 0x41) State.reset) fun _ => ()) = some () ∧ (after (exec .uInit State.reset) fun _ => ()) = some () := by
  decide
theorem wit_Writers : Instr.uInit.wellFormed = true ∧ Instr.uInit ≠ .wholeDecode ∧
    after (exec .uInit State.reset) (fun t => t.err) = some .ok := by decide
theorem wit_Encode : (Instr.gChr 0x7F).wellFormed = true ∧ decode .mode [0xFF] = .ok .dOct8 := by decide

end Sys2Proof.Tests
end

section
/-!
PROOF. Reset and start (`10_state.md` R50, R51), the `STATUS` byte (R37), and what the document fixes of the configured
tables (R41, R43).
-/

namespace Sys2Proof.Machine

/-! Reset and start. -/

theorem step_reset {s : State} (hr : s.resetIn = true) : step s = .next (resetSequence s) := by
  rw [step, if_pos hr]

theorem step_start {s : State} (hr : s.resetIn = false) (hb : s.busy = false) (hs : s.startIn = true) :
    step s = .next (startSequence s) := by
  simp [step, hr, hb, hs]

theorem reset_atStartValues : State.reset.AtStartValues := by
  unfold State.AtStartValues
  decide

theorem resetSequence_atStartValues (s : State) : (resetSequence s).AtStartValues := by
  simp [State.AtStartValues, State.T]

theorem startSequence_atStartValues (s : State) : (startSequence s).AtStartValues := by
  simp [State.AtStartValues, State.T]

theorem startSequence_sameInput (s : State) : SameInput s (startSequence s) := ⟨rfl, fun _ => rfl⟩

/-- Settles O1: right after reset by evaluation, after a reset event because the step is then the reset sequence. -/
theorem resetGivesTheTableOfValues : Obligations.ResetGivesTheTableOfValues :=
  ⟨⟨rfl, reset_atStartValues⟩, fun s hr =>
    ⟨resetSequence s, step_reset hr, resetSequence_phase s, resetSequence_atStartValues s⟩⟩

/-- Settles O2: the step is then the start sequence. -/
theorem startSetsEveryRegisterButTheInput : Obligations.StartSetsEveryRegisterButTheInput := fun s hr hb hs =>
  ⟨startSequence s, step_start hr hb hs, startSequence_phase s, startSequence_atStartValues s, startSequence_sameInput s⟩

/-! The fields of `STATUS` (R37), read off the number the byte holds. -/

theorem ErrCode.code_lt (e : ErrCode) : e.code < 3 := by
  cases e <;> decide

theorem status_toNat (s : State) : s.status.toNat = s.done.toNat + 2 * s.err.code + 8 * s.fb.toNat := by
  have hd := s.done.toNat_le
  have he := s.err.code_lt
  have hf := s.fb.toNat_le
  rw [State.status, BitVec.toNat_ofNat, Nat.mod_eq_of_lt (by omega)]

theorem status_bit0 (s : State) : s.status.getLsbD 0 = s.done := by
  have h : s.status.toNat % 2 = s.done.toNat := by
    have hd := s.done.toNat_le
    rw [status_toNat]
    omega
  rw [BitVec.getLsbD, Nat.testBit_zero, h]
  cases s.done <;> rfl

theorem status_errField (s : State) : ((s.status >>> 1) &&& 3).toNat = s.err.code := by
  have hd := s.done.toNat_le
  have he := s.err.code_lt
  calc ((s.status >>> 1) &&& 3).toNat
      = s.status.toNat / 2 % 4 := by
        rw [BitVec.toNat_and, BitVec.toNat_ushiftRight, Nat.shiftRight_eq_div_pow]
        exact Nat.and_two_pow_sub_one_eq_mod _ 2
    _ = s.err.code := by
        rw [status_toNat]
        omega

theorem status_bit3 (s : State) : s.status.getLsbD 3 = s.fb := by
  have h : s.status.toNat / 2 ^ 3 % 2 = s.fb.toNat := by
    have hd := s.done.toNat_le
    have he := s.err.code_lt
    have hf := s.fb.toNat_le
    rw [status_toNat]
    omega
  rw [BitVec.getLsbD, Nat.testBit_eq_decide_div_mod_eq, h]
  cases s.fb <;> rfl

theorem status_highBits (s : State) : s.status >>> 4 = 0 := by
  have hd := s.done.toNat_le
  have he := s.err.code_lt
  have hf := s.fb.toNat_le
  apply BitVec.eq_of_toNat_eq
  rw [BitVec.toNat_ushiftRight, Nat.shiftRight_eq_div_pow, status_toNat]
  exact Nat.div_eq_of_lt (by omega)

theorem hostReadStatus_done {s : State} (h : s.done = true) : hostReadStatus s = s.status := by
  rw [hostReadStatus, if_pos h]

/-- Settles O6: the fields are those of the byte in every state, and the invariant ties `done` to DONE. -/
theorem statusByteLayout : Obligations.StatusByteLayout := by
  intro s ⟨_, hdone, _⟩
  refine ⟨?_, ?_, status_bit3 s, status_highBits s, hostReadStatus_done⟩
  · rw [status_bit0, Bool.eq_iff_iff, hdone, decide_eq_true_iff]
  · rw [status_errField]
    cases s.err <;> rfl

/-! The configured tables. -/

/-- What R41 fixes of `BASIC`. -/
theorem basic_fixedEntries :
    Config.basic 72 = 0x48 ∧ Config.basic 101 = 0x65 ∧ Config.basic 108 = 0x6C ∧ Config.basic 111 = 0x6F ∧
    Config.basic 0x65 ≠ 0x11F := by
  decide

/-- What R43 fixes of `NST`. -/
theorem nst_fixedEntry : Config.nst 0x65 = some 0x11F := by
  decide

/-- Settles O32: the entries R41 and R43 fix, and the two substitutes by definition (R7, R158). -/
theorem configuredTablesAreAdmissible : Obligations.ConfiguredTablesAreAdmissible := by
  obtain ⟨hH, he, hl, ho, hne⟩ := basic_fixedEntries
  exact ⟨hH, he, hl, ho, hne, nst_fixedEntry, rfl, rfl⟩

end Sys2Proof.Machine
end

section
/-!
PROOF. The characters of the `PDU` string (`20_memory.md` R62) and their HEXCH rows (`30_encoding.md` R91), the octets of a
string (R63, R213), and the closed form of the parse (`43_pdu_field_parser.md` R211, R213).
-/

namespace Sys2Proof.Machine

/-! The class of a character, its value and its row. -/

theorem isDecDigit_iff {c : Byte} : isDecDigit c = true ↔ 0x30 ≤ c.toNat ∧ c.toNat ≤ 0x39 := by
  simp [isDecDigit]

theorem isUpperDigit_iff {c : Byte} : isUpperDigit c = true ↔ 0x41 ≤ c.toNat ∧ c.toNat ≤ 0x46 := by
  simp [isUpperDigit]

theorem isLowerDigit_iff {c : Byte} : isLowerDigit c = true ↔ 0x61 ≤ c.toNat ∧ c.toNat ≤ 0x66 := by
  simp [isLowerDigit]

/-- The fourth row takes what none of the three ranges holds (R91). -/
theorem hexBad_wellFormed_iff {c : Byte} : (Instr.hexBad c).wellFormed = true ↔
    ¬isDecDigit c = true ∧ ¬isUpperDigit c = true ∧ ¬isLowerDigit c = true := by
  simp [Instr.wellFormed, and_assoc]

theorem hexVal_dec {c : Byte} (h : isDecDigit c = true) : hexVal c = some (c.toNat - 0x30) :=
  if_pos (isDecDigit_iff.1 h)

theorem hexVal_upper {c : Byte} (h : isUpperDigit c = true) : hexVal c = some (c.toNat - 0x37) := by
  have hc := isUpperDigit_iff.1 h
  rw [hexVal, if_neg (by omega), if_pos hc]

theorem hexVal_lower {c : Byte} (h : isLowerDigit c = true) : hexVal c = some (c.toNat - 0x57) := by
  have hc := isLowerDigit_iff.1 h
  rw [hexVal, if_neg (by omega), if_neg (by omega), if_pos hc]

theorem hexVal_bad {c : Byte} (h : (Instr.hexBad c).wellFormed = true) : hexVal c = none := by
  obtain ⟨hd, hu, hl⟩ := hexBad_wellFormed_iff.1 h
  rw [hexVal, if_neg (mt isDecDigit_iff.2 hd), if_neg (mt isUpperDigit_iff.2 hu), if_neg (mt isLowerDigit_iff.2 hl)]

theorem checkChar_digit {c : Byte} {x : Nat} (h : hexVal c = some x) (s : State) : checkChar c s = .next s :=
  if_pos (by rw [isHexDigit, h]; rfl)

theorem checkChar_bad {c : Byte} (h : hexVal c = none) (s : State) : checkChar c s = raise .malformedInput s :=
  if_neg (by rw [isHexDigit, h]; exact Bool.false_ne_true)

/-- The row of a character, with the class the row's pattern asks for (R91). -/
theorem decodeHexch_cases (c : Byte) :
    (decodeHexch c = .hexDec c ∧ isDecDigit c = true) ∨ (decodeHexch c = .hexUpper c ∧ isUpperDigit c = true) ∨
    (decodeHexch c = .hexLower c ∧ isLowerDigit c = true) ∨
    (decodeHexch c = .hexBad c ∧ (Instr.hexBad c).wellFormed = true) := by
  simp only [hexBad_wellFormed_iff, isDecDigit_iff, isUpperDigit_iff, isLowerDigit_iff]
  unfold decodeHexch
  split
  · exact .inl ⟨rfl, ‹_›⟩
  · split
    · exact .inr (.inl ⟨rfl, ‹_›⟩)
    · split
      · exact .inr (.inr (.inl ⟨rfl, ‹_›⟩))
      · exact .inr (.inr (.inr ⟨rfl, ‹_›, ‹_›, ‹_›⟩))

/-- The decoder of the characters answers a well-formed row of its own character (R91). -/
theorem decodeHexch_row (c : Byte) : (decodeHexch c).wellFormed = true ∧
    (decodeHexch c = .hexDec c ∨ decodeHexch c = .hexUpper c ∨ decodeHexch c = .hexLower c ∨
      decodeHexch c = .hexBad c) := by
  rcases decodeHexch_cases c with ⟨h, hc⟩ | ⟨h, hc⟩ | ⟨h, hc⟩ | ⟨h, hc⟩
  · exact ⟨h ▸ hc, .inl h⟩
  · exact ⟨h ▸ hc, .inr (.inl h)⟩
  · exact ⟨h ▸ hc, .inr (.inr (.inl h))⟩
  · exact ⟨h ▸ hc, .inr (.inr (.inr h))⟩

/-- Settles O8: each class has its value by `hexVal`, each row is `checkChar`, and the decoder tests the same ranges. -/
theorem hexCharactersByClass : Obligations.HexCharactersByClass := by
  intro c s
  refine ⟨fun h => ?dec, fun h => ?upper, fun h => ?lower, fun h => ?bad, decodeHexch c, rfl, decodeHexch_row c⟩
  case dec => exact ⟨hexVal_dec h, checkChar_digit (hexVal_dec h) s⟩
  case upper => exact ⟨hexVal_upper h, checkChar_digit (hexVal_upper h) s⟩
  case lower => exact ⟨hexVal_lower h, checkChar_digit (hexVal_lower h) s⟩
  case bad => exact ⟨hexVal_bad h, checkChar_bad (hexVal_bad h) s⟩

/-! The octets of a string. -/

/-- A string that begins with a pair has octets when the pair has one and the rest has some (R213). -/
theorem octetsOf_pair {a b : Byte} {r O : List Byte} : octetsOf (a :: b :: r) = some O ↔
    ∃ o os, octetOf a b = some o ∧ octetsOf r = some os ∧ O = o :: os := by
  rw [octetsOf]
  cases octetOf a b with
  | none => simp
  | some o => cases octetsOf r <;> simp [eq_comm]

/-- Exactly the strings `P.HEX` passes have octets (R200, R213). -/
theorem octetsOf_exists_iff : ∀ C : List Byte,
    (∃ O, octetsOf C = some O) ↔ C.length % 2 = 0 ∧ ∀ c ∈ C, hexVal c ≠ none
  | []          => by simp [octetsOf]
  | [_]         => by simp [octetsOf]
  | a :: b :: r => by
    have hpair : (∃ O, octetsOf (a :: b :: r) = some O) ↔ (∃ o, octetOf a b = some o) ∧ ∃ os, octetsOf r = some os := by
      simp only [octetsOf_pair]
      exact ⟨fun ⟨_, o, os, ho, hos, _⟩ => ⟨⟨o, ho⟩, os, hos⟩, fun ⟨⟨o, ho⟩, os, hos⟩ => ⟨_, o, os, ho, hos, rfl⟩⟩
    have hoct : (∃ o, octetOf a b = some o) ↔ hexVal a ≠ none ∧ hexVal b ≠ none := by
      rw [← Option.isSome_iff_exists, octetOf_isSome]
      simp [Option.isSome_iff_ne_none]
    have hlen : (a :: b :: r).length % 2 = r.length % 2 := by
      simp only [List.length_cons]
      omega
    rw [hpair, hoct, octetsOf_exists_iff r, hlen, List.forall_mem_cons, List.forall_mem_cons]
    tauto

/-- Two characters make an octet (R63). -/
theorem length_of_octetsOf : ∀ {C O : List Byte}, octetsOf C = some O → C.length = 2 * O.length
  | [], _, h          => by cases h; rfl
  | a :: b :: r, _, h => by
    obtain ⟨o, os, -, hr, rfl⟩ := octetsOf_pair.1 h
    have hlen := length_of_octetsOf hr
    simp only [List.length_cons]
    omega

/-- Octet `j` is that of the characters `2j` and `2j + 1` (R63). -/
theorem octetsOf_getElem? : ∀ {C O : List Byte}, octetsOf C = some O → ∀ {j : Nat} {o : Byte}, O[j]? = some o →
    ∃ c d, C[2 * j]? = some c ∧ C[2 * j + 1]? = some d ∧ octetOf c d = some o
  | [], _, h, _, _, hj              => by cases h; cases hj
  | a :: b :: r, _, h, 0, _, hj     => by
    obtain ⟨o, os, ho, -, rfl⟩ := octetsOf_pair.1 h
    cases hj
    exact ⟨a, b, rfl, rfl, ho⟩
  | a :: b :: r, _, h, j + 1, _, hj => by
    obtain ⟨o, os, -, hr, rfl⟩ := octetsOf_pair.1 h
    exact octetsOf_getElem? hr hj

/-! The parse. -/

theorem parsePdu_no_octets {C : List Byte} (h : octetsOf C = none) : parsePdu C = none := by
  rw [parsePdu, h]
  rfl

/-- A field is passed when its octets are there, and the parse goes on behind it (R213). -/
theorem takeOctets_bind_eq_some {α : Type} {m pos k : Nat} {f : Nat → Option α} {y : α} :
    (takeOctets m pos k).bind f = some y ↔ pos + k ≤ m ∧ f (pos + k) = some y := by
  simp [Option.bind_eq_some_iff, takeOctets_eq_some, and_assoc]

/-- The parse of a string of octets, for `n` octets of SMSC and `h` of the originating address: the ten bounds come down to
the last, and each field stands at its place (R211, R213). -/
theorem parsePdu_eq_some {C O : List Byte} {n h : Nat} {f : PduFields} (hO : octetsOf C = some O)
    (hn : (O.getD 0 0).toNat = n) (hh : oaOctets (O.getD (n + 2) 0) = h) :
    parsePdu C = some f ↔ n + 14 + h ≤ O.length ∧
      f = { hp := udhi (O.getD (n + 1) 0), dcs := O.getD (n + 5 + h) 0, udl := O.getD (n + 13 + h) 0,
            ud := O.drop (n + 14 + h) } := by
  have hflags : 0 + 1 + n = n + 1 := by omega
  have hdcs : n + 1 + 1 + 1 + 1 + h + 1 = n + 5 + h := by omega
  have hudl : n + 5 + h + 1 + 7 = n + 13 + h := by omega
  have hud : n + 13 + h + 1 = n + 14 + h := by omega
  rw [parsePdu, hO]
  simp only [Option.bind_eq_bind, Option.bind_some, takeOctets_bind_eq_some]
  simp only [hn, hflags, hh, hdcs, hudl, hud, Option.pure_def, Option.some.injEq]
  constructor
  · rintro ⟨-, -, -, -, -, -, -, -, -, hm, rfl⟩
    exact ⟨hm, rfl⟩
  · rintro ⟨hm, rfl⟩
    refine ⟨?_, ?_, ?_, ?_, ?_, ?_, ?_, ?_, ?_, hm, rfl⟩ <;> omega

/-- Settles O41: the octets by recursion over the pairs of characters, the parse by its last bound. -/
theorem parseClosedForm : Obligations.ParseClosedForm := by
  intro C
  refine ⟨octetsOf_exists_iff C, parsePdu_no_octets, fun O hO => ⟨length_of_octetsOf hO, fun j o hj => ?_, ?_, ?_⟩⟩
  · obtain ⟨c, d, hc, hd, ho⟩ := octetsOf_getElem? hO hj
    obtain ⟨x, y, hx, hy, hxy⟩ := octetOf_eq_some.1 ho
    exact ⟨c, d, x, y, hc, hd, hx, hy, hxy⟩
  · intro hshort
    refine Option.eq_none_iff_forall_ne_some.2 fun f hf => ?_
    exact absurd ((parsePdu_eq_some hO rfl rfl).1 hf).1 (Nat.not_le.2 hshort)
  · intro hlong
    exact (parsePdu_eq_some hO rfl rfl).2 ⟨hlong, rfl⟩

end Sys2Proof.Machine
end

section
/-!
PROOF. Unit U, the septet unpacker (`40_septet_unpacker.md`): where U.INIT puts the cursor (R132).
-/

namespace Sys2Proof.Machine

/-- U.INIT is total and raises nothing: its next state is the unpacker's start (R132). -/
@[simp] theorem exec_uInit (s : State) : exec .uInit s = .next (unpackInit s) := rfl

/-- The start of the unpacker as one record update: the cursor and the count are written, every other field is kept (R132). -/
theorem unpackInit_eq (s : State) : unpackInit s = { s with bitpos := s.pad.toNat, cnt := 0 } := rfl

/-- Settles O26: U.INIT goes to the unpacker's start, which is the record update R132 states. -/
theorem unpackerStartsAfterThePadding : Obligations.UnpackerStartsAfterThePadding := fun s => by
  rw [exec_uInit, unpackInit_eq]

end Sys2Proof.Machine
end

section
/-!
PROOF. Unit G, the GSM 7-bit character decoder (`41_gsm7_decoder.md`): its operations as record updates (R151 to R155), and
an escaped table index in the decoder function (R159, R160).
-/

namespace Sys2Proof.Machine

/-! The operations of `G`. Each is total; all but G.INIT empty the port (log 11). -/

@[simp] theorem exec_gInit (s : State) : exec .gInit s = .next (decoderInit s) := rfl

@[simp] theorem exec_gEnd (s : State) : exec .gEnd s = .next (finish (consume s)) := rfl

@[simp] theorem exec_gEsc (s : State) : exec .gEsc s = .next { consume s with esc := true } := rfl

@[simp] theorem exec_gChr (v : Byte) (s : State) : exec (.gChr v) s = .next (emitBasic v (consume s)) := rfl

theorem exec_gXchr (v : Byte) (s : State) : exec (.gXchr v) s = execGXchr v s := rfl

theorem exec_gXchr_shifted {v : Byte} {s : State} {c : CodePoint} (h : shiftEntry s.nst v = some c) :
    exec (.gXchr v) s = .next (decoderInit (emit c (consume s))) := by
  rw [exec_gXchr, execGXchr, h]

theorem exec_gXchr_unshifted {v : Byte} {s : State} (h : shiftEntry s.nst v = none) :
    exec (.gXchr v) s = .next (decoderInit (emitBasic v (consume s))) := by
  rw [exec_gXchr, execGXchr, h]

/-- An entry is found exactly in an enabled table that defines it (R155). -/
theorem shiftEntry_eq_some {u : Bool} {v : Byte} {c : CodePoint} :
    shiftEntry u v = some c ↔ u = true ∧ Config.tables.nst v = some c := by
  cases u <;> simp [shiftEntry]

theorem shiftEntry_eq_none {u : Bool} {v : Byte} :
    shiftEntry u v = none ↔ u = false ∨ Config.tables.nst v = none := by
  cases u <;> simp [shiftEntry]

/-! What is emitted for a value taken from the port, with its frame. -/

theorem emit_consume_eq (c : CodePoint) (s : State) :
    emit c (consume s) = { s with txt := s.txt ++ [c], port := none } := rfl

theorem emitBasic_consume_valid {v : Byte} (h : v.toNat ≤ 127) (s : State) : emitBasic v (consume s) =
    { s with txt := s.txt ++ [Config.tables.basic (v.setWidth 7)], port := none } := by
  rw [emitBasic_valid h, emit_consume_eq]

theorem emitBasic_consume_invalid {v : Byte} (h : 127 < v.toNat) (s : State) : emitBasic v (consume s) =
    { s with txt := s.txt ++ [0x3F], fb := true, port := none } := by
  rw [emitBasic_invalid h]
  rfl

/-- Settles O33: each of the three operations is the record update of its rule. -/
theorem escapeStateAndSentinel : Obligations.EscapeStateAndSentinel := fun s =>
  ⟨⟨_, exec_gInit s, rfl⟩, ⟨_, exec_gEnd s, rfl⟩, ⟨_, exec_gEsc s, rfl⟩⟩

/-- Settles O34: G.CHR is `emitBasic`, by whether the value is an index of the basic alphabet. -/
theorem basicCharacterIsEmitted : Obligations.BasicCharacterIsEmitted := by
  intro s v _
  refine ⟨_, exec_gChr v s, fun hv => ?_, fun hv => ?_⟩
  · rw [emitBasic_consume_valid hv]
  · rw [emitBasic_consume_invalid hv]

/-- Settles O35: by whether the value finds a shift-table entry, and if not, as for G.CHR. -/
theorem escapedCharacterIsEmitted : Obligations.EscapedCharacterIsEmitted := by
  intro s v
  cases hn : shiftEntry s.nst v with
  | some c =>
    obtain ⟨hu, hc⟩ := shiftEntry_eq_some.1 hn
    refine ⟨_, exec_gXchr_shifted hn, fun c' _ hc' => ?_, fun habsent => ?_⟩
    · obtain rfl : c = c' := Option.some.inj (hc.symm.trans hc')
      rfl
    · exact absurd (hn.symm.trans (shiftEntry_eq_none.2 habsent)) (Option.some_ne_none c)
  | none =>
    refine ⟨_, exec_gXchr_unshifted hn, fun c hu hc => ?_, fun _ => ⟨fun hv => ?_, fun hv => ?_⟩⟩
    · exact absurd ((shiftEntry_eq_some.2 ⟨hu, hc⟩).symm.trans hn) (Option.some_ne_none c)
    · rw [emitBasic_consume_valid hv]
      rfl
    · rw [emitBasic_consume_invalid hv]
      rfl

/-! An escaped table index in the decoder function. -/

section

variable (tb : Tables) (u : Bool) (v : Byte) (r : List Byte)

/-- A leading 0x1B emits nothing, it sets the escape state (R153, R165). -/
theorem g7Decode_escape (S : List Byte) : g7Decode tb (0x1B :: S) u = g7Go tb u S true [] false := by
  simp [g7Decode, g7Go]

/-- An escaped value up to 127 emits its shift-table entry or, without one, its basic entry, and clears the escape state
(R155, R165). -/
theorem g7Go_escaped_index (hv : v.toNat ≤ 127) (out : List CodePoint) (fb : Bool) :
    g7Go tb u (v :: r) true out fb =
      g7Go tb u r false (out ++ [(if u then tb.nst v else none).getD (tb.basic (v.setWidth 7))]) fb := by
  rw [g7Go]
  cases (if u then tb.nst v else none) with
  | some c => rfl
  | none => exact if_pos hv

/-- So 0x1B and an index emit one code point together, and the rest is decoded as if it stood alone. -/
theorem g7Decode_escaped_index (hv : v.toNat ≤ 127) :
    g7Decode tb (0x1B :: v :: r) u =
      ((if u then tb.nst v else none).getD (tb.basic (v.setWidth 7)) :: (g7Decode tb r u).1, (g7Decode tb r u).2) := by
  rw [g7Decode_escape, g7Go_escaped_index tb u v r hv, g7Go_out]
  rfl

end

/-- Settles O39: 0x00 and 0x1B are indices up to 127, so the escape state takes them as any other. -/
theorem escapedSpecialValuesAreIndices : Obligations.EscapedSpecialValuesAreIndices := by
  intro tb u v r hspecial
  have hv : v.toNat ≤ 127 := by
    rcases hspecial with rfl | rfl <;> decide
  rw [g7Decode_escaped_index tb u v r hv]
  refine ⟨?_, rfl⟩
  cases (if u then tb.nst v else none) <;> rfl

end Sys2Proof.Machine
end

section
/-!
PROOF. Unit H, the user-data-header scanner (`42_udh_scanner.md`): the header length (R178), one element (R179, R180) and
the padding (R182).
-/

namespace Sys2Proof.Machine

/-! The operations of `H`. -/

theorem exec_hLen (s : State) : exec .hLen s = execHLen s := rfl

theorem exec_hIe (s : State) : exec .hIe s = execHIe s := rfl

theorem exec_hIeNss (n : Byte) (s : State) : exec (.hIeNss n) s = walkElement 0x24 n s := rfl

theorem exec_hIeOther (id n : Byte) (s : State) : exec (.hIeOther id n) s = walkElement id n s := rfl

theorem exec_hPad (s : State) :
    exec .hPad s = .next { s with pad := BitVec.ofNat 3 (padFor s.span), phase := .dispatch } := rfl

/-! H.LEN: no user data, a header longer than the user data, a header that fits (R178). -/

theorem execHLen_empty {s : State} (h : s.udn = 0) : execHLen s = raise .structuralHeaderError s := if_pos h

/-- A first octet leaves the one test of the header's length. -/
theorem execHLen_read {s : State} {t : Byte} (hn : s.udn ≠ 0) (ht : s.ud? 0 = some t) :
    execHLen s = if spanOf t > s.udn then raise .structuralHeaderError s
      else .next { s with thl := t, span := spanOf t, uoff := 1, nst := false, phase := walkPhase 1 (spanOf t) } := by
  rw [execHLen, if_neg hn, withUd_some ht]

theorem execHLen_long {s : State} {t : Byte} (ht : s.ud? 0 = some t) (h : s.udn < spanOf t) :
    execHLen s = raise .structuralHeaderError s := by
  by_cases hn : s.udn = 0
  · exact execHLen_empty hn
  · rw [execHLen_read hn ht, if_pos h]

theorem execHLen_fits {s : State} {t : Byte} (ht : s.ud? 0 = some t) (h : spanOf t ≤ s.udn) :
    execHLen s = .next { s with
      thl := t, span := spanOf t, uoff := 1, nst := false, phase := walkPhase 1 (spanOf t) } := by
  have hn : s.udn ≠ 0 := by
    have := (spanOf_le t).1
    omega
  rw [execHLen_read hn ht, if_neg (by omega)]

/-- Settles O17: H.LEN by its three outcomes. -/
theorem headerLengthIsRead : Obligations.HeaderLengthIsRead := by
  intro s
  rw [exec_hLen]
  exact ⟨execHLen_empty, fun _ ht => ⟨execHLen_long ht, execHLen_fits ht⟩⟩

/-! H.IE: an identifier without room for its length octet, and an element whose two octets are read (R179). -/

theorem execHIe_short {s : State} (h : s.span ≤ s.uoff + 1) : execHIe s = raise .structuralHeaderError s := if_pos h

theorem execHIe_read {s : State} {id n : Byte} (h : s.uoff + 1 < s.span) (hid : s.ud? s.uoff = some id)
    (hn : s.ud? (s.uoff + 1) = some n) : execHIe s = walkElement id n s := by
  rw [execHIe, if_neg (by omega), withUd_some hid, withUd_some hn]

/-- Settles O19: H.IE walks the element it reads, and so does the row of that element's identifier. -/
theorem headerElementIsSelectedByIdentifier : Obligations.HeaderElementIsSelectedByIdentifier := by
  intro s id n
  rw [exec_hIe]
  refine ⟨execHIe_short, fun hroom hid hn => ?_⟩
  rw [execHIe_read hroom hid hn, exec_hIeNss, exec_hIeOther]
  refine ⟨fun h24 => ?nss, fun _ => rfl, fun hlong => walk_bad (.inr hlong), walk_ok hroom⟩
  case nss => rw [h24]

/-! H.PAD. -/

/-- The padding fits the three bits of `pad`, so the register holds it whole (R104, R182). -/
theorem toNat_ofNat_padFor (span : Nat) : (BitVec.ofNat 3 (padFor span)).toNat = padFor span := by
  rw [BitVec.toNat_ofNat, Nat.mod_eq_of_lt]
  exact (padFor_lt span).trans (by decide)

/-- Settles O20: what H.PAD writes is the padding itself, since it fits the register. -/
theorem paddingIsComputedFromTheSpan : Obligations.PaddingIsComputedFromTheSpan := fun s =>
  ⟨_, toNat_ofNat_padFor s.span, exec_hPad s⟩

end Sys2Proof.Machine
end

section
/-!
PROOF. Unit P, the PDU field parser (`43_pdu_field_parser.md`): the check of the whole string (R200), the fields that are
skipped or kept (R201 to R207) and the user data (R208).
-/

namespace Sys2Proof.Machine

/-! The operations of `P`. -/

theorem exec_pHex (s : State) : exec .pHex s = execPHex s := rfl

theorem exec_pSmsc (s : State) : exec .pSmsc s = execPSmsc s := rfl

theorem exec_pFlags (s : State) : exec .pFlags s = execPFlags s := rfl

theorem exec_pOa (s : State) : exec .pOa s = execPOa s := rfl

theorem exec_pPid (s : State) : exec .pPid s = execPPid s := rfl

theorem exec_pDcs (s : State) : exec .pDcs s = execPDcs s := rfl

theorem exec_pScts (s : State) : exec .pScts s = execPScts s := rfl

theorem exec_pUdl (s : State) : exec .pUdl s = execPUdl s := rfl

theorem exec_pUd (s : State) : exec .pUd s = .next { s with
    ud0 := s.pos, udn := s.M - s.pos, phase := if s.hp = true then .udhLen else .dispatch } := rfl

/-! P.HEX: a checked string, and any other (R200). -/

theorem execPHex_ok {s : State} (h : s.HexOk) : execPHex s = .next { s with pos := 0, phase := .fSmsc } := by
  obtain ⟨heven, hdigits⟩ := h
  rw [execPHex, if_neg (by omega), if_pos ((chars_all s).2 hdigits)]

theorem execPHex_bad {s : State} (h : ¬ s.HexOk) : execPHex s = raise .malformedInput s := by
  by_cases hodd : s.N % 2 = 1
  · rw [execPHex, if_pos hodd]
  · have hchars : ¬ s.chars.all isHexDigit = true := fun hall => h ⟨by omega, (chars_all s).1 hall⟩
    rw [execPHex, if_neg hodd, if_neg hchars]

theorem not_hexOk_of_odd {s : State} (h : s.N % 2 = 1) : ¬ s.HexOk := fun ⟨heven, _⟩ => by omega

theorem not_hexOk_of_bad {s : State} (h : ∃ i < s.N, hexVal (s.chr i) = none) : ¬ s.HexOk := by
  obtain ⟨i, hi, hbad⟩ := h
  rintro ⟨-, hdigits⟩
  simpa [hbad] using hdigits i hi

/-- Settles O9: P.HEX passes the strings that are `HexOk`, and an odd count or a bad character is a way not to be. -/
theorem hexCheckCoversTheWholeString : Obligations.HexCheckCoversTheWholeString := by
  intro s
  rw [exec_pHex]
  exact ⟨execPHex_ok, fun hodd => execPHex_bad (not_hexOk_of_odd hodd), fun hbad => execPHex_bad (not_hexOk_of_bad hbad)⟩

/-! The octet a field begins with, and bounds behind a cursor that has moved (R210). -/

/-- A field operation whose first octet is there goes on with it. -/
theorem need_withOct_read {s : State} {b : Byte} {k : Byte → Result} (h : s.oct? s.pos = some b) :
    need 1 s (withOct s s.pos k) = k b := by
  obtain ⟨hlt, -⟩ := oct_eq_some.1 h
  rw [need_ok hlt, withOct_some h]

/-- A bound that fails behind a moved cursor raises as from the cursor's old place: the abort frees the cursor (R262). -/
theorem need_skip_short {j k : Nat} {s : State} {r : Result} (h : s.M < s.pos + j + k) :
    need k (skip j s) r = raise .malformedInput s := by
  rw [need_short (s := skip j s) h, raise_eq, raise_eq, abort_skip]

theorem need_skip_ok {j k : Nat} {s : State} {r : Result} (h : s.pos + j + k ≤ s.M) : need k (skip j s) r = r :=
  need_ok h

/-- Two bounds in a row are the bound on both together. -/
theorem need_need_skip (j k : Nat) (s : State) (r : Result) : need j s (need k (skip j s) r) = need (j + k) s r := by
  by_cases hj : s.pos + j ≤ s.M
  · by_cases hk : s.pos + j + k ≤ s.M
    · rw [need_ok hj, need_skip_ok hk, need_ok (by omega)]
    · rw [need_ok hj, need_skip_short (by omega), need_short (by omega)]
  · rw [need_short (by omega), need_short (by omega)]

/-! P.SMSC (R201). -/

/-- Behind its length octet P.SMSC has one bound left. -/
theorem execPSmsc_read {s : State} {n : Byte} (h : s.oct? s.pos = some n) :
    execPSmsc s = need n.toNat (skip 1 s) (.next (goto .fFlags (skip n.toNat (skip 1 s)))) :=
  need_withOct_read h

/-- Settles O10: the bound on the length octet, then the bound on the octets it counts. -/
theorem smscFieldIsSkipped : Obligations.SmscFieldIsSkipped := by
  intro s
  rw [exec_pSmsc]
  refine ⟨need_short, fun n hn => ?_⟩
  rw [execPSmsc_read hn]
  exact ⟨need_skip_short, need_skip_ok⟩

/-! P.FLAGS (R202). -/

/-- `UDHI` is the low bit of the flags octet moved down six places (R39). -/
theorem udhi_eq_shift (f : Byte) : udhi f = (f >>> 6).getLsbD 0 :=
  (BitVec.getLsbD_ushiftRight f 6 0).symm

theorem execPFlags_read {s : State} {f : Byte} (h : s.oct? s.pos = some f) :
    execPFlags s = .next { s with hp := udhi f, pos := s.pos + 1, phase := .fOa } :=
  need_withOct_read h

/-- Settles O11: the bound on the flags octet, then the octet's bit 6. -/
theorem flagsFieldGivesHp : Obligations.FlagsFieldGivesHp := by
  intro s
  rw [exec_pFlags]
  refine ⟨need_short, fun f hf => ?_⟩
  rw [execPFlags_read hf, udhi_eq_shift]

/-! P.OA (R203). -/

/-- Behind the digit count P.OA has one bound left, on the type of address and the digits together. -/
theorem execPOa_read {s : State} {a : Byte} (h : s.oct? s.pos = some a) :
    execPOa s = need (1 + oaOctets a) (skip 1 s) (.next (goto .fPid (skip (oaOctets a) (skip 1 (skip 1 s))))) :=
  (need_withOct_read h).trans (need_need_skip 1 (oaOctets a) (skip 1 s) _)

theorem execPOa_short {s : State} {a : Byte} (ha : s.oct? s.pos = some a) (h : s.M < s.pos + 2 + oaOctets a) :
    execPOa s = raise .malformedInput s := by
  rw [execPOa_read ha, need_skip_short (by omega)]

theorem execPOa_fits {s : State} {a : Byte} (ha : s.oct? s.pos = some a) (h : s.pos + 2 + oaOctets a ≤ s.M) :
    execPOa s = .next { s with pos := s.pos + 2 + oaOctets a, phase := .fPid } := by
  rw [execPOa_read ha, need_skip_ok (by omega)]
  rfl

/-- Settles O12: the bound on the digit count, then the other two as one. -/
theorem originatingAddressIsSkipped : Obligations.OriginatingAddressIsSkipped := by
  intro s
  rw [exec_pOa]
  exact ⟨need_short, fun a ha => ⟨fun h => execPOa_short ha (by omega), execPOa_short ha, execPOa_fits ha⟩⟩

/-! P.PID, P.SCTS (R204, R206). -/

/-- Settles O13: each operation is its bound and then its skip. -/
theorem pidAndTimestampAreSkipped : Obligations.PidAndTimestampAreSkipped := by
  intro s
  rw [exec_pPid, exec_pScts]
  exact ⟨need_short, need_ok, need_short, need_ok⟩

/-! P.DCS, P.UDL (R205, R207). -/

theorem execPDcs_read {s : State} {b : Byte} (h : s.oct? s.pos = some b) :
    execPDcs s = .next { s with dcs := b, pos := s.pos + 1, phase := .fScts } :=
  need_withOct_read h

theorem execPUdl_read {s : State} {b : Byte} (h : s.oct? s.pos = some b) :
    execPUdl s = .next { s with udl := b, pos := s.pos + 1, phase := .fUd } :=
  need_withOct_read h

/-- Settles O14: each operation is the bound on its octet and then the write of that octet. -/
theorem dcsAndUdlAreKept : Obligations.DcsAndUdlAreKept := by
  intro s
  rw [exec_pDcs, exec_pUdl]
  exact ⟨fun h => ⟨need_short h, need_short h⟩, fun b hb => ⟨execPDcs_read hb, execPUdl_read hb⟩⟩

/-! P.UD (R208). -/

/-- Settles O15: P.UD is the record update R208 states. -/
theorem userDataIsTheRest : Obligations.UserDataIsTheRest := exec_pUd

end Sys2Proof.Machine
end

section
/-!
PROOF. Unit D, the payload decoder (`44_payload_decoder.md`): the choice of the payload mode (R226).
-/

namespace Sys2Proof.Machine

theorem exec_dSel (s : State) : exec .dSel s = execDSel s := rfl

/-! The mode of a DCS octet, in the order of the tests (R94, R226). -/

theorem payloadMode_oct8 {d : Byte} (h : d &&& 0x04 ≠ 0) : payloadMode d = .oct8 := if_pos h

theorem payloadMode_ucs2 {d : Byte} (h4 : d &&& 0x04 = 0) (h : d &&& 0x0C = 0x08) : payloadMode d = .ucs2 := by
  rw [payloadMode, if_neg (not_not_intro h4), if_pos h]

theorem payloadMode_gsm7 {d : Byte} (h4 : d &&& 0x04 = 0) (h : d &&& 0x0C ≠ 0x08) : payloadMode d = .gsm7 := by
  rw [payloadMode, if_neg (not_not_intro h4), if_neg h]

/-! D.SEL by the mode. -/

theorem execDSel_oct8 {s : State} (h : payloadMode s.dcs = .oct8) : execDSel s = .next { s with phase := .pay8 } := by
  rw [execDSel, h]
  rfl

theorem execDSel_ucs2 {s : State} (h : payloadMode s.dcs = .ucs2) : execDSel s = .next { s with phase := .payU } := by
  rw [execDSel, h]
  rfl

theorem execDSel_gsm7 {s : State} (h : payloadMode s.dcs = .gsm7) : execDSel s = .next { s with
    cap := capFor s.udl s.span, bitpos := s.pad.toNat, cnt := 0, esc := false, phase := .pay7 } := by
  rw [execDSel, h]
  rfl

/-- Settles O22: the two tests give the mode, and D.SEL goes by the mode. -/
theorem dcsSelectsThePayloadMode : Obligations.DcsSelectsThePayloadMode := by
  intro s
  rw [exec_dSel]
  refine ⟨fun h8 => execDSel_oct8 (payloadMode_oct8 h8), fun h4 hu => execDSel_ucs2 (payloadMode_ucs2 h4 hu),
    fun h4 hu => ?_⟩
  rw [execDSel_gsm7 (payloadMode_gsm7 h4 hu), capFor, Nat.zero_max]

end Sys2Proof.Machine
end

section
/-!
PROOF. The views of a string as lists of octets (R63, R64, R227), and what it means that the sequencer decodes from a state
to DONE (R238, R306).
-/

namespace Sys2Proof.Machine

/-! The views as lists. -/

/-- `O` is the list of all octets of the string (R63). -/
def State.OctetsAre (s : State) (O : List Byte) : Prop := s.M = O.length ∧ ∀ j, s.oct? j = O[j]?

/-- `UD` is the list of all octets of the user data (R64). -/
def State.UserDataIs (s : State) (UD : List Byte) : Prop := s.udn = UD.length ∧ ∀ k, s.ud? k = UD[k]?

/-- `B` is the list of all octets of the payload (R227). -/
def State.PayloadIs (s : State) (B : List Byte) : Prop := s.payLen = B.length ∧ ∀ i, s.pay? i = B[i]?

theorem chars_length (s : State) : s.chars.length = s.N := by
  simp [State.chars]

theorem chars_getElem? {s : State} {i : Nat} {c : Byte} (h : s.chars[i]? = some c) : i < s.N ∧ s.chr i = c := by
  simpa [State.chars, List.getElem?_eq_some_iff] using h

/-- Inside a list the filler of `getD` is not read. -/
theorem getElem?_eq_some_getD {L : List Byte} {j : Nat} (h : j < L.length) : L[j]? = some (L.getD j 0) := by
  rw [List.getD_eq_getElem _ _ h, List.getElem?_eq_getElem]

/-- The octets of the character string are those the parser reads (R63, R213). -/
theorem octetsAre_of_octetsOf {s : State} {O : List Byte} (hO : octetsOf s.chars = some O) : s.OctetsAre O := by
  have hN : s.N = 2 * O.length := by
    rw [← chars_length, length_of_octetsOf hO]
  have hM : s.M = O.length := by
    rw [State.M, hN]
    omega
  refine ⟨hM, fun j => ?_⟩
  cases hj : O[j]? with
  | none =>
    have hle : O.length ≤ j := List.getElem?_eq_none_iff.1 hj
    exact if_neg (by omega)
  | some o =>
    obtain ⟨c, d, hc, hd, ho⟩ := octetsOf_getElem? hO hj
    obtain ⟨hlt, rfl⟩ := chars_getElem? hc
    obtain ⟨-, rfl⟩ := chars_getElem? hd
    exact oct_eq_some.2 ⟨by omega, ho⟩

/-- The characters `P.HEX` passes are those that have octets (R200, R213). -/
theorem octetsOf_chars_iff {s : State} : (∃ O, octetsOf s.chars = some O) ↔ s.HexOk := by
  rw [octetsOf_exists_iff, chars_length]
  simp [State.HexOk, State.chars, Option.isSome_iff_ne_none]

theorem octetsOf_chars_of_bad {s : State} (h : ¬ s.HexOk) : octetsOf s.chars = none :=
  Option.eq_none_iff_forall_ne_some.2 fun O hO => h (octetsOf_chars_iff.1 ⟨O, hO⟩)

theorem State.OctetsAre.read {s : State} {O : List Byte} (h : s.OctetsAre O) {j : Nat} (hj : j < s.M) :
    s.oct? j = some (O.getD j 0) := by
  obtain ⟨hM, hO⟩ := h
  rw [hO, getElem?_eq_some_getD (hM ▸ hj)]

/-- The user data from octet `p` on is the rest of the string (R208). -/
theorem State.OctetsAre.userDataIs {s : State} {O : List Byte} (h : s.OctetsAre O) (p : Nat) :
    State.UserDataIs { s with ud0 := p, udn := s.M - p } (O.drop p) := by
  obtain ⟨hM, hO⟩ := h
  refine ⟨by rw [List.length_drop, ← hM], fun k => ?_⟩
  rw [List.getElem?_drop, ← hO, State.ud?]
  by_cases hk : k < s.M - p
  · exact if_pos hk
  · exact (if_neg hk).trans (if_neg (by omega)).symm

theorem State.UserDataIs.read {s : State} {UD : List Byte} (h : s.UserDataIs UD) {k : Nat} (hk : k < s.udn) :
    s.ud? k = some (UD.getD k 0) := by
  obtain ⟨hn, hUD⟩ := h
  rw [hUD, getElem?_eq_some_getD (hn ▸ hk)]

/-- The payload is the user data behind the header (R227). -/
theorem State.UserDataIs.payloadIs {s : State} {UD : List Byte} (h : s.UserDataIs UD) :
    s.PayloadIs (UD.drop s.span) := by
  obtain ⟨hn, hUD⟩ := h
  refine ⟨by rw [State.payLen, hn, List.length_drop], fun i => ?_⟩
  rw [pay_eq, hUD, List.getElem?_drop]

theorem State.PayloadIs.read_getD {s : State} {B : List Byte} (h : s.PayloadIs B) {i : Nat} (hi : i < B.length) :
    s.pay? i = some (B.getD i 0) := by
  rw [h.2, getElem?_eq_some_getD hi]

/-- The octets from the cursor `q` on, where these are `R`. -/
theorem State.PayloadIs.read {s : State} {B R : List Byte} (h : s.PayloadIs B) {q : Nat} (hR : B.drop q = R) {i : Nat}
    {b : Byte} (hb : R[i]? = some b) : s.pay? (q + i) = some b := by
  rw [h.2, ← List.getElem?_drop, hR, hb]

/-! A decode from a state to DONE. -/

/-- The sequencer goes from `s` to DONE in at most `n` steps, with the result `r`. -/
def DecodesIn (n : Nat) (s : State) (r : DecodeResult) : Prop :=
  ∃ t, runToDone n s = .next t ∧ t.phase = .done ∧ t.done = true ∧ t.result = r

theorem runToDone_of_done {s : State} (h : s.phase = .done) (n : Nat) : runToDone n s = .next s := by
  cases n <;> exact if_pos h

theorem runToDone_succ {s : State} (h : s.phase ≠ .done) (n : Nat) :
    runToDone (n + 1) s = andThen (seqStep s) (runToDone n) := if_neg h

/-- A run that has come to its end keeps it under a greater bound. -/
theorem runToDone_mono {n m : Nat} {s t : State} (h : runToDone n s = .next t) (hnm : n ≤ m) :
    runToDone m s = .next t := by
  induction n generalizing m s with
  | zero =>
    by_cases hp : s.phase = .done
    · rw [runToDone_of_done hp] at h ⊢
      exact h
    · rw [runToDone, if_neg hp] at h
      cases h
  | succ n ih =>
    by_cases hp : s.phase = .done
    · rw [runToDone_of_done hp] at h ⊢
      exact h
    · obtain ⟨m, rfl⟩ := Nat.exists_eq_add_one_of_ne_zero (Nat.ne_zero_of_lt hnm)
      rw [runToDone_succ hp] at h ⊢
      obtain ⟨u, hu, ht⟩ := andThen_eq_next h
      rw [hu, andThen_next, ih ht (Nat.le_of_succ_le_succ hnm)]

theorem DecodesIn.mono {n m : Nat} {s : State} {r : DecodeResult} (h : DecodesIn n s r) (hnm : n ≤ m) :
    DecodesIn m s r := by
  obtain ⟨t, ht, hend⟩ := h
  exact ⟨t, runToDone_mono ht hnm, hend⟩

theorem DecodesIn.of_done {s : State} (hp : s.phase = .done) (hd : s.done = true) (n : Nat) : DecodesIn n s s.result :=
  ⟨s, runToDone_of_done hp n, hp, hd, rfl⟩

theorem DecodesIn.of_finish {n : Nat} {s u : State} (hp : s.phase ≠ .done) (hs : seqStep s = .next (finish u)) :
    DecodesIn (n + 1) s u.result := by
  refine ⟨finish u, ?_, rfl, rfl, rfl⟩
  rw [runToDone_succ hp, hs, andThen_next, runToDone_of_done (finish_phase u)]

theorem DecodesIn.step {n : Nat} {s u : State} {r : DecodeResult} (hp : s.phase ≠ .done) (hs : seqStep s = .next u)
    (h : DecodesIn n u r) : DecodesIn (n + 1) s r := by
  obtain ⟨t, ht, hend⟩ := h
  exact ⟨t, by rw [runToDone_succ hp, hs, andThen_next, ht], hend⟩

theorem DecodesIn.of_raise {n : Nat} {s : State} {e : ErrCode} (hp : s.phase ≠ .done) (hs : seqStep s = raise e s) :
    DecodesIn (n + 1) s (abortResult e) :=
  .step hp hs (.of_done (s := abort e s) rfl rfl n)

end Sys2Proof.Machine
end

section
/-!
PROOF. The straight payloads: PAY_8 computes `West8Text` and PAY_U computes `Ucs2Text` (R235, R237, R241).
-/

namespace Sys2Proof.Machine

/-- The result of a state that has still to emit `t` and to note its flag. -/
def State.resultWith (s : State) (t : List CodePoint × Bool) : DecodeResult :=
  { err := s.err, fb := s.fb || t.2, text := s.txt ++ t.1 }

/-- Phase `p` computes the function `f` of its payload: with no octet left it goes to DONE, else one step is a payload step
that does what `f` does with the octets it takes. -/
structure StraightMode (p : Phase) (f : List Byte → List CodePoint × Bool) : Prop where
  running : p ≠ .done
  nil : f [] = ([], false)
  empty : ∀ {s : State}, s.phase = p → s.payLen ≤ s.bitpos → seqStep s = .next (finish s)
  step : ∀ {s : State} {B : List Byte}, s.phase = p → s.PayloadIs B → s.bitpos < B.length →
    ∃ c sub k, 0 < k ∧ s.bitpos + k ≤ B.length ∧ seqStep s = .next (payloadStep c sub k s) ∧
      f (B.drop s.bitpos) = (c :: (f (B.drop (s.bitpos + k))).1, sub || (f (B.drop (s.bitpos + k))).2)

theorem payloadStep_resultWith (c : CodePoint) (sub : Bool) (k : Nat) (s : State) (t : List CodePoint × Bool) :
    (payloadStep c sub k s).resultWith t = s.resultWith (c :: t.1, sub || t.2) := by
  simp [State.resultWith, payloadStep, Bool.or_assoc]

theorem resultWith_nothing (s : State) : s.resultWith ([], false) = s.result := by
  simp [State.resultWith, State.result]

theorem StraightMode.decodesIn_nonempty {p : Phase} {f : List Byte → List CodePoint × Bool} (m : StraightMode p f)
    {B : List Byte} : ∀ (n : Nat) {s : State}, s.phase = p → s.PayloadIs B → s.bitpos < B.length →
    B.length ≤ s.bitpos + n → DecodesIn n s (s.resultWith (f (B.drop s.bitpos)))
  | 0, _, _, _, hlt, hn => by omega
  | n + 1, s, hs, hB, hlt, hn => by
    obtain ⟨c, sub, k, hk, hle, hnext, hf⟩ := m.step hs hB hlt
    refine .step (hs ▸ m.running) hnext ?_
    rw [hf, ← payloadStep_resultWith]
    have hlen : s.payLen = B.length := hB.1
    by_cases hmore : s.bitpos + k < B.length
    · have hphase : (payloadStep c sub k s).phase = p := (if_pos (by omega)).trans hs
      exact m.decodesIn_nonempty n hphase hB hmore (by simp only [payloadStep]; omega)
    · rw [List.drop_of_length_le (by omega), m.nil, resultWith_nothing]
      exact .of_done (if_neg (by omega)) (if_neg (by omega)) n

/-- From its first octet on the phase decodes its whole payload. -/
theorem StraightMode.decodesIn {p : Phase} {f : List Byte → List CodePoint × Bool} (m : StraightMode p f) {s : State}
    {B : List Byte} (hs : s.phase = p) (hB : s.PayloadIs B) (h0 : s.bitpos = 0) :
    DecodesIn (B.length + 1) s (s.resultWith (f B)) := by
  have hlen : s.payLen = B.length := hB.1
  match B with
  | [] =>
    rw [m.nil, resultWith_nothing]
    exact .of_finish (hs ▸ m.running) (m.empty hs (by simp [hlen]))
  | b :: r =>
    have h := m.decodesIn_nonempty (b :: r).length hs hB (by simp [h0]) (Nat.le_add_left _ _)
    rw [h0, List.drop_zero] at h
    exact h.mono (Nat.le_succ _)

/-! D.OCT8. -/

/-- The configured `WEST8` defines every octet (log 7). -/
theorem west8_eq (b : Byte) : Config.tables.west8 b = some (b.setWidth 21) := rfl

theorem execDOct8_read {s : State} {b : Byte} (hlt : s.bitpos < s.payLen) (hb : s.pay? s.bitpos = some b) :
    execDOct8 s = .next (payloadStep (b.setWidth 21) false 1 s) := by
  rw [execDOct8, if_pos hlt, withPay_some hb, west8_eq]
  simp only [advance_emit]

theorem execDOct8_empty {s : State} (h : s.payLen ≤ s.bitpos) : execDOct8 s = .next (finish s) := if_neg (by omega)

theorem west8Text_cons (b : Byte) (r : List Byte) : west8Text Config.tables (b :: r) =
    (b.setWidth 21 :: (west8Text Config.tables r).1, (west8Text Config.tables r).2) := rfl

theorem oct8_straightMode : StraightMode .pay8 (west8Text Config.tables) where
  running := by decide
  nil := rfl
  empty hs h := by rw [seqStep, hs]; exact execDOct8_empty h
  step {s B} hs hB hlt := by
    have hdrop := List.drop_eq_getElem_cons hlt
    refine ⟨B[s.bitpos].setWidth 21, false, 1, Nat.one_pos, hlt, ?_, ?_⟩
    · rw [seqStep, hs]
      exact execDOct8_read (hB.1 ▸ hlt) (hB.read hdrop (i := 0) rfl)
    · rw [hdrop, west8Text_cons, Bool.false_or]

/-! D.UCS2. -/

theorem execDUcs2_empty {s : State} (h : s.payLen ≤ s.bitpos) : execDUcs2 s = .next (finish s) := if_neg (by omega)

/-- A left-over octet. -/
theorem execDUcs2_octet {s : State} (h : s.bitpos + 1 = s.payLen) : execDUcs2 s = .next (payloadStep 0xFFFD true 1 s) := by
  rw [execDUcs2, if_pos (by omega), if_pos (by omega), advance_sub]
  rfl

theorem execDUcs2_read {s : State} {b0 b1 : Byte} (h : s.bitpos + 1 < s.payLen) (h0 : s.pay? s.bitpos = some b0)
    (h1 : s.pay? (s.bitpos + 1) = some b1) : execDUcs2 s = ucs2Unit (unitOf b0 b1) s := by
  rw [execDUcs2, if_pos (by omega), if_neg (by omega), withPay_some h0, withPay_some h1]

theorem ucs2Unit_plain {u : Nat} {s : State} (h : isPlainUnit u = true) :
    ucs2Unit u s = .next (payloadStep (BitVec.ofNat 21 u) false 2 s) := by
  rw [ucs2Unit, if_pos h, advance_emit]

/-- A surrogate that is low, or that has no whole unit behind it. -/
theorem ucs2Unit_alone {u : Nat} {s : State} (h : isPlainUnit u = false)
    (hlow : isHighSurrogate u = false ∨ s.payLen ≤ s.bitpos + 3) :
    ucs2Unit u s = .next (payloadStep 0xFFFD true 2 s) := by
  have hno : ¬ (isHighSurrogate u && decide (s.bitpos + 3 < s.payLen)) = true := by
    rw [Bool.and_eq_true, decide_eq_true_iff]
    rintro ⟨hhigh, hlt⟩
    rcases hlow with hlow | hlow
    · exact Bool.false_ne_true (hlow.symm.trans hhigh)
    · omega
  rw [ucs2Unit, h, if_neg Bool.false_ne_true, if_neg hno, advance_sub]
  rfl

/-- A high surrogate with a whole unit behind it. -/
theorem ucs2Unit_high {u : Nat} {b2 b3 : Byte} {s : State} (h : isPlainUnit u = false) (hhigh : isHighSurrogate u = true)
    (hlt : s.bitpos + 3 < s.payLen) (h2 : s.pay? (s.bitpos + 2) = some b2) (h3 : s.pay? (s.bitpos + 3) = some b3) :
    ucs2Unit u s = .next (if isLowSurrogate (unitOf b2 b3) then payloadStep (pairCodePoint u (unitOf b2 b3)) false 4 s
      else payloadStep 0xFFFD true 2 s) := by
  rw [ucs2Unit, h, if_neg Bool.false_ne_true, hhigh, Bool.true_and, if_pos (decide_eq_true hlt), ucs2High,
    withPay_some h2, withPay_some h3]
  simp only [advance_emit, advance_sub]
  split <;> rfl

/-- `Ucs2Text` on a unit that is no surrogate, whatever follows (R237). -/
theorem ucs2Text_plain {tb : Tables} {b0 b1 : Byte} (h : isPlainUnit (unitOf b0 b1) = true) (r : List Byte) :
    ucs2Text tb (b0 :: b1 :: r) = (BitVec.ofNat 21 (unitOf b0 b1) :: (ucs2Text tb r).1, (ucs2Text tb r).2) := by
  match r with
  | [] | [_] | _ :: _ :: _ => simp [ucs2Text, h]

/-- `Ucs2Text` on a surrogate that joins no pair: a low one, or one with no whole unit behind it (R237). -/
theorem ucs2Text_alone {tb : Tables} {b0 b1 : Byte} (h : isPlainUnit (unitOf b0 b1) = false) {r : List Byte}
    (hlow : isHighSurrogate (unitOf b0 b1) = false ∨ r.length < 2) :
    ucs2Text tb (b0 :: b1 :: r) = (tb.repl :: (ucs2Text tb r).1, true) := by
  match r with
  | [] | [_] => simp [ucs2Text, h]
  | b2 :: b3 :: r =>
    have hhigh : isHighSurrogate (unitOf b0 b1) = false := hlow.resolve_right (by simp)
    simp [ucs2Text, h, hhigh]

/-- `Ucs2Text` on a surrogate with a unit behind it, by whether the two are a pair (R237). -/
theorem ucs2Text_high {tb : Tables} {b0 b1 b2 b3 : Byte} {r : List Byte} (h : isPlainUnit (unitOf b0 b1) = false)
    (hhigh : isHighSurrogate (unitOf b0 b1) = true) : ucs2Text tb (b0 :: b1 :: b2 :: b3 :: r) =
      if isLowSurrogate (unitOf b2 b3) then
        (pairCodePoint (unitOf b0 b1) (unitOf b2 b3) :: (ucs2Text tb r).1, (ucs2Text tb r).2)
      else (tb.repl :: (ucs2Text tb (b2 :: b3 :: r)).1, true) := by
  rw [ucs2Text]
  simp [h, hhigh]

/-- One step of D.UCS2 takes one, two or four octets, and does with them what `Ucs2Text` does (R237, R241). -/
theorem execDUcs2_ucs2Text {s : State} {B : List Byte} (hB : s.PayloadIs B) (hlt : s.bitpos < B.length) :
    ∃ c sub k, 0 < k ∧ s.bitpos + k ≤ B.length ∧ execDUcs2 s = .next (payloadStep c sub k s) ∧
      ucs2Text Config.tables (B.drop s.bitpos) = (c :: (ucs2Text Config.tables (B.drop (s.bitpos + k))).1,
        sub || (ucs2Text Config.tables (B.drop (s.bitpos + k))).2) := by
  have hlen : s.payLen = B.length := hB.1
  have hleft : (B.drop s.bitpos).length = B.length - s.bitpos := List.length_drop
  simp only [← List.drop_drop]
  generalize hR : B.drop s.bitpos = R at hleft ⊢
  match R with
  | [] =>
    simp only [List.length_nil] at hleft
    omega
  | [b0] =>
    simp only [List.length_cons, List.length_nil] at hleft
    exact ⟨_, true, 1, by omega, by omega, execDUcs2_octet (by omega), rfl⟩
  | b0 :: b1 :: r =>
    simp only [List.length_cons] at hleft
    have hunit := execDUcs2_read (by omega) (hB.read hR (i := 0) rfl) (hB.read hR (i := 1) rfl)
    rw [hunit]
    cases hplain : isPlainUnit (unitOf b0 b1) with
    | true => exact ⟨_, false, 2, by omega, by omega, ucs2Unit_plain hplain, ucs2Text_plain hplain r⟩
    | false =>
      by_cases halone : isHighSurrogate (unitOf b0 b1) = false ∨ r.length < 2
      · exact ⟨_, true, 2, by omega, by omega, ucs2Unit_alone hplain (halone.imp_right fun h => by omega),
          ucs2Text_alone hplain halone⟩
      · obtain ⟨hhigh, hmore⟩ := not_or.1 halone
        obtain ⟨b2, b3, r, rfl⟩ : ∃ b2 b3 r', r = b2 :: b3 :: r' := by
          match r, hmore with
          | [], h | [_], h => exact absurd (by simp) h
          | b2 :: b3 :: r, _ => exact ⟨b2, b3, r, rfl⟩
        simp only [List.length_cons] at hleft
        rw [ucs2Unit_high hplain (by simpa using hhigh) (by omega) (hB.read hR (i := 2) rfl) (hB.read hR (i := 3) rfl),
          ucs2Text_high hplain (by simpa using hhigh)]
        cases isLowSurrogate (unitOf b2 b3) with
        | true => exact ⟨_, false, 4, by omega, by omega, rfl, rfl⟩
        | false => exact ⟨_, true, 2, by omega, by omega, rfl, rfl⟩

theorem ucs2_straightMode : StraightMode .payU (ucs2Text Config.tables) where
  running := by decide
  nil := rfl
  empty hs h := by rw [seqStep, hs]; exact execDUcs2_empty h
  step hs hB hlt := by rw [seqStep, hs]; exact execDUcs2_ucs2Text hB hlt

end Sys2Proof.Machine
end

section
/-!
PROOF. The 7-bit payload: U.NEXT delivers the septets of `Unpack` (R133 to R135), an operation of `G` is one round of
`G7Decode` (R165), so PAY_7 decodes the septets that are left (R230, R240).
-/

namespace Sys2Proof.Machine

/-- `Unpack` has a septet `k` where its seven bits lie in the payload and it is wanted (R135). -/
theorem lt_unpack_length_iff {B : List Byte} {p : BitVec 3} {cap k : Nat} :
    k < (unpack B p (some cap)).length ↔ p.toNat + 7 * k + 7 ≤ 8 * B.length ∧ k < cap := by
  simp only [unpack_length, unpackCount]
  omega

theorem unpack_getElem {B : List Byte} {p : BitVec 3} {cap : Option Nat} {k : Nat} (h : k < (unpack B p cap).length) :
    (unpack B p cap)[k] = septetOf fun j => bitAt B (p.toNat + 7 * k + j) := by
  simp [unpack]

/-- The two octets a septet lies in give its bits (R73, R133). -/
theorem pairBit_eq_bitAt {B : List Byte} {q j : Nat} (hj : j < 7) :
    pairBit (B.getD (q / 8) 0) (B.getD ((q + 6) / 8) 0) (q % 8) j = bitAt B (q + j) := by
  rw [pairBit, bitAt]
  split
  · rw [show (q + j) / 8 = q / 8 by omega, show (q + j) % 8 = q % 8 + j by omega]
  · rw [show (q + j) / 8 = (q + 6) / 8 by omega, show (q + j) % 8 = q % 8 + j - 8 by omega]

/-- Between the steps of a 7-bit payload: nothing waits at `G`, and the cursor stands at the septet that `cnt` counts. -/
structure AtSeptet (s : State) (B : List Byte) : Prop where
  payload : s.PayloadIs B
  port : s.port = none
  capValid : s.capValid = true
  cursor : s.bitpos = s.pad.toNat + 7 * s.cnt

section

variable {s : State} {B : List Byte} (h : AtSeptet s B)
include h

/-- `U` delivers exactly while `Unpack` has a septet left (R134, R135). -/
theorem AtSeptet.enabled_iff : unpackEnabled s = true ↔ s.cnt < (unpack B s.pad (some s.cap)).length := by
  rw [unpackEnabled_iff, lt_unpack_length_iff, h.capValid, h.cursor, h.payload.1]
  simp

/-- The septet U.NEXT delivers is that of `Unpack` (R133, R135). -/
theorem AtSeptet.delivers (hlt : s.cnt < (unpack B s.pad (some s.cap)).length) : execUNext s = .next { s with
    bitpos := s.bitpos + 7, cnt := s.cnt + 1, port := some (portValue (unpack B s.pad (some s.cap))[s.cnt]) } := by
  have hroom : s.bitpos + 7 ≤ 8 * B.length := h.cursor ▸ (lt_unpack_length_iff.1 hlt).1
  have hseptet := septetOf_congr fun j (hj : j < 7) => pairBit_eq_bitAt (B := B) (q := s.bitpos) hj
  rw [execUNext_enabled (h.enabled_iff.2 hlt) (h.payload.read_getD (by omega)) (h.payload.read_getD (by omega)),
    hseptet, unpack_getElem, h.cursor]

/-- The end of `Unpack` is where `U` is exhausted (R134, R135). -/
theorem AtSeptet.pay7Step_exhausted (hle : (unpack B s.pad (some s.cap)).length ≤ s.cnt) :
    pay7Step s = .next (finish s) := by
  have hoff : ¬ unpackEnabled s = true := mt h.enabled_iff.1 (Nat.not_lt.2 hle)
  rw [pay7Step, h.port]
  exact if_neg hoff

theorem AtSeptet.pay7Step_septet {v : Septet} {S : List Septet} (hS : (unpack B s.pad (some s.cap)).drop s.cnt = v :: S) :
    pay7Step s = septetOp (portValue v) { s with
      bitpos := s.bitpos + 7, cnt := s.cnt + 1, port := some (portValue v) } := by
  have hlt : s.cnt < (unpack B s.pad (some s.cap)).length := by
    refine Nat.lt_of_not_le fun hle => ?_
    rw [List.drop_of_length_le hle] at hS
    cases hS
  obtain ⟨hv, -⟩ := List.cons.inj ((List.drop_eq_getElem_cons hlt).symm.trans hS)
  rw [pay7Step, h.port]
  simp only [h.enabled_iff.2 hlt, if_true, h.delivers hlt, hv, andThen_next, takePort]

end

/-- What `G` does with one value is one round of R165: the text ends, or it goes on from what `G` then holds. -/
theorem septetOp_g7Go (v : Byte) (s : State) :
    (septetOp v s = .next (finish (consume s)) ∧
      ∀ r, g7Go Config.tables s.nst (v :: r) s.esc s.txt s.fb = (s.txt, s.fb)) ∨
    ∃ out fb esc, septetOp v s = .next { s with txt := out, fb := fb, esc := esc, port := none } ∧
      ∀ r, g7Go Config.tables s.nst (v :: r) s.esc s.txt s.fb = g7Go Config.tables s.nst r esc out fb := by
  cases he : s.esc with
  | true =>
    have hop : septetOp v s = execGXchr v s := by rw [septetOp, he, if_pos rfl]
    rw [hop, execGXchr]
    cases hn : shiftEntry s.nst v with
    | some c =>
      have hentry : (if s.nst then Config.tables.nst v else none) = some c := hn
      exact .inr ⟨s.txt ++ [c], s.fb, false, rfl, fun r => by rw [g7Go, hentry]⟩
    | none =>
      have hentry : (if s.nst then Config.tables.nst v else none) = none := hn
      by_cases hv : v.toNat ≤ 127
      · rw [emitBasic_consume_valid hv]
        exact .inr ⟨_, _, false, rfl, fun r => by rw [g7Go, hentry]; exact if_pos hv⟩
      · rw [emitBasic_consume_invalid (by omega)]
        exact .inr ⟨_, _, false, rfl, fun r => by rw [g7Go, hentry]; exact if_neg hv⟩
  | false =>
    rw [septetOp, he, if_neg Bool.false_ne_true]
    by_cases hend : v = 0x00
    · exact .inl ⟨if_pos hend, fun r => by rw [g7Go, if_pos hend]⟩
    · by_cases hesc : v = 0x1B
      · exact .inr ⟨s.txt, s.fb, true, (if_neg hend).trans (if_pos hesc),
          fun r => by rw [g7Go, if_neg hend, if_pos hesc]⟩
      · rw [if_neg (show ¬ v = Config.septEnd from hend), if_neg (show ¬ v = Config.septEsc from hesc), execGChr]
        by_cases hv : v.toNat ≤ 127
        · rw [emitBasic_consume_valid hv]
          exact .inr ⟨_, _, s.esc, rfl, fun r => by rw [g7Go, if_neg hend, if_neg hesc, if_pos hv, he]⟩
        · rw [emitBasic_consume_invalid (by omega)]
          exact .inr ⟨_, _, s.esc, rfl, fun r => by rw [g7Go, if_neg hend, if_neg hesc, if_neg hv, he]; rfl⟩

/-- The steps of PAY_7 decode the septets that are left, from what `G` holds (R165, R230, R240). -/
theorem decodesIn_pay7 {B : List Byte} {g : List CodePoint × Bool} : ∀ (S : List Septet) {s : State}, s.phase = .pay7 →
    AtSeptet s B → (unpack B s.pad (some s.cap)).drop s.cnt = S →
    g7Go Config.tables s.nst (S.map portValue) s.esc s.txt s.fb = g →
    DecodesIn (S.length + 1) s { err := s.err, fb := g.2, text := g.1 }
  | [], s, hs, h, hS, hg => by
    have hseq : seqStep s = pay7Step s := by rw [seqStep, hs]
    rw [← hg, List.map_nil, g7Go]
    exact .of_finish (by rw [hs]; decide) (hseq.trans (h.pay7Step_exhausted (List.drop_eq_nil_iff.1 hS)))
  | v :: S, s, hs, h, hS, hg => by
    have hne : s.phase ≠ .done := by rw [hs]; decide
    have hseq : seqStep s = pay7Step s := by rw [seqStep, hs]
    have hrest : (unpack B s.pad (some s.cap)).drop (s.cnt + 1) = S := by
      rw [← List.drop_drop, hS]
      rfl
    rw [h.pay7Step_septet hS] at hseq
    rcases septetOp_g7Go (portValue v) { s with
        bitpos := s.bitpos + 7, cnt := s.cnt + 1, port := some (portValue v) } with
      ⟨hend, hgo⟩ | ⟨out, fb, esc, hnext, hgo⟩
    · obtain rfl : (s.txt, s.fb) = g := (hgo _).symm.trans hg
      exact (DecodesIn.of_finish hne (hseq.trans hend) :)
    · have hat : AtSeptet { s with
          bitpos := s.bitpos + 7, cnt := s.cnt + 1, txt := out, fb := fb, esc := esc, port := none } B :=
        ⟨h.payload, rfl, h.capValid, by simp only [h.cursor]; omega⟩
      exact .step hne (hseq.trans hnext) (decodesIn_pay7 S hs hat hrest ((hgo _).symm.trans hg))

end Sys2Proof.Machine
end

section
/-!
PROOF. DECODE is the function `Decode` of the character string (R238): the payload from the choice of its mode on, the
header before it (R178 to R182, R189), the fields before both (R201 to R208), and the check of the whole string (R200).
-/

namespace Sys2Proof.Machine

/-! From the choice of the payload mode on. -/

/-- Nothing is emitted, the payload's cursor stands at its start, and the ports are at rest. -/
structure State.Fresh (s : State) : Prop where
  clean : s.Clean
  bitpos : s.bitpos = 0
  port : s.port = none
  capValid : s.capValid = true

theorem State.Clean.resultWith {s : State} (h : s.Clean) (t : List CodePoint × Bool) : s.resultWith t = textResult t := by
  obtain ⟨herr, hfb, htxt⟩ := h
  simp [State.resultWith, textResult, herr, hfb, htxt]

/-- D.SEL and the payload's mode decode the payload (R225, R226, R238). -/
theorem decodesIn_payload {s : State} {UD : List Byte} (hs : s.phase = .dispatch) (hf : s.Fresh) (hUD : s.UserDataIs UD) :
    DecodesIn (2 * UD.length + 2) s
      (textResult (decodePayload Config.tables s.dcs UD s.udl s.span s.nst s.pad)) := by
  have hne : s.phase ≠ .done := by rw [hs]; decide
  have hseq : seqStep s = execDSel s := by rw [seqStep, hs]
  have hB := hUD.payloadIs
  have hlen : (UD.drop s.span).length ≤ UD.length := by simp
  rw [← hf.clean.resultWith, decodePayload]
  cases hmode : payloadMode s.dcs with
  | oct8 =>
    have hrun := oct8_straightMode.decodesIn (s := { s with phase := .pay8 }) rfl hB hf.bitpos
    exact (DecodesIn.step hne (hseq.trans (execDSel_oct8 hmode)) hrun).mono (by omega)
  | ucs2 =>
    have hrun := ucs2_straightMode.decodesIn (s := { s with phase := .payU }) rfl hB hf.bitpos
    exact (DecodesIn.step hne (hseq.trans (execDSel_ucs2 hmode)) hrun).mono (by omega)
  | gsm7 =>
    have hat : AtSeptet { s with
        cap := capFor s.udl s.span, bitpos := s.pad.toNat, cnt := 0, esc := false, phase := .pay7 } (UD.drop s.span) :=
      ⟨hB, hf.port, hf.capValid, rfl⟩
    have hrun := decodesIn_pay7 _ rfl hat rfl (g7Go_out _ _ _ _ _ _)
    refine (DecodesIn.step hne (hseq.trans (execDSel_gsm7 hmode)) hrun).mono ?_
    simp only [List.drop_zero, unpack_length, unpackCount]
    omega

/-! The header (R178 to R182, R189). -/

section

variable {UD : List Byte} {span fuel o : Nat} {nst : Bool}

theorem udhWalk_end (h : span ≤ o) : udhWalk UD span (fuel + 1) o nst = some nst := if_pos h

theorem udhWalk_short (h : o < span) (h1 : span ≤ o + 1) : udhWalk UD span (fuel + 1) o nst = none := by
  rw [udhWalk, if_neg (by omega), if_pos h1]

theorem udhWalk_long (h1 : o + 1 < span) (h : span < o + 2 + (UD.getD (o + 1) 0).toNat) :
    udhWalk UD span (fuel + 1) o nst = none := by
  rw [udhWalk, if_neg (by omega), if_neg (by omega)]
  exact if_pos (by rw [elementSize]; omega)

theorem udhWalk_fits (h1 : o + 1 < span) (h : o + 2 + (UD.getD (o + 1) 0).toNat ≤ span) :
    udhWalk UD span (fuel + 1) o nst =
      udhWalk UD span fuel (o + 2 + (UD.getD (o + 1) 0).toNat) (nst || UD.getD o 0 == 0x24) := by
  rw [udhWalk, if_neg (by omega), if_neg (by omega)]
  simp only [elementSize, ← Nat.add_assoc]
  exact if_neg (by omega)

end

/-- The walk and H.PAD behind it do what `walk` of R189 does. -/
theorem decodesIn_walk {n : Nat} {UD : List Byte} {r : Bool → DecodeResult} : ∀ (fuel : Nat) {s : State},
    s.UserDataIs UD → s.span ≤ s.udn → s.uoff ≤ s.span → s.span < s.uoff + fuel → s.phase = walkPhase s.uoff s.span →
    (∀ nst, udhWalk UD s.span fuel s.uoff s.nst = some nst → DecodesIn n { s with
      nst := nst, uoff := s.span, pad := BitVec.ofNat 3 (padFor s.span), phase := .dispatch } (r nst)) →
    DecodesIn (n + fuel) s ((udhWalk UD s.span fuel s.uoff s.nst).elim (abortResult .structuralHeaderError) r)
  | 0, s, _, _, hle, hfuel, _, _ => by omega
  | fuel + 1, s, hUD, hudn, hle, hfuel, hs, hrest => by
    by_cases hlt : s.uoff < s.span
    · rw [walkPhase, if_pos hlt] at hs
      have hne : s.phase ≠ .done := by rw [hs]; decide
      have hseq : seqStep s = execHIe s := by rw [seqStep, hs]
      by_cases hroom : s.uoff + 1 < s.span
      · rw [execHIe_read hroom (hUD.read (by omega)) (hUD.read (by omega))] at hseq
        by_cases hfits : s.uoff + 2 + (UD.getD (s.uoff + 1) 0).toNat ≤ s.span
        · rw [udhWalk_fits hroom hfits] at hrest ⊢
          exact .step hne (hseq.trans (walk_ok hroom hfits))
            (decodesIn_walk fuel hUD hudn hfits (by simp only; omega) rfl hrest)
        · rw [udhWalk_long hroom (by omega)]
          exact .of_raise hne (hseq.trans (walk_bad (.inr (by omega))))
      · rw [udhWalk_short hlt (by omega)]
        exact .of_raise hne (hseq.trans (execHIe_short (by omega)))
    · have huoff : s.uoff = s.span := by omega
      rw [walkPhase, if_neg hlt] at hs
      have hseq : seqStep s = execHPad s := by rw [seqStep, hs]
      have hend := hrest s.nst (udhWalk_end (by omega))
      rw [udhWalk_end (by omega)]
      have hpad : DecodesIn (n + 1) s (r s.nst) := by
        refine .step (by rw [hs]; decide) (hseq.trans (exec_hPad s)) ?_
        simp only [huoff]
        exact hend
      exact hpad.mono (by omega)

theorem scanUdh_long {t : Byte} {r : List Byte} (h : (t :: r).length < spanOf t) : scanUdh (t :: r) = none := if_pos h

theorem scanUdh_walk {t : Byte} {r : List Byte} (h : spanOf t ≤ (t :: r).length) : scanUdh (t :: r) =
    (udhWalk (t :: r) (spanOf t) (spanOf t) 1 false).map fun nst =>
      { thl := t, span := spanOf t, nst := nst, pad := BitVec.ofNat 3 (padFor (spanOf t)) } := by
  rw [scanUdh, if_neg (by omega)]
  cases udhWalk (t :: r) (spanOf t) (spanOf t) 1 false <;> rfl

/-- H.LEN, the walk and H.PAD do what `ScanUDH` does (R175, R189). -/
theorem decodesIn_header {n : Nat} {s : State} {UD : List Byte} {r : HeaderScan → DecodeResult} (hs : s.phase = .udhLen)
    (hUD : s.UserDataIs UD) (hrest : ∀ h, scanUdh UD = some h → DecodesIn n { s with
      thl := h.thl, span := h.span, uoff := h.span, nst := h.nst, pad := h.pad, phase := .dispatch } (r h)) :
    DecodesIn (n + UD.length + 1) s ((scanUdh UD).elim (abortResult .structuralHeaderError) r) := by
  have hne : s.phase ≠ .done := by rw [hs]; decide
  have hseq : seqStep s = execHLen s := by rw [seqStep, hs]
  have hudn : s.udn = UD.length := hUD.1
  match UD with
  | [] => exact .of_raise hne (hseq.trans (execHLen_empty hudn))
  | t :: l =>
    have ht : s.ud? 0 = some t := hUD.2 0
    by_cases hfits : spanOf t ≤ (t :: l).length
    · have hspan := (spanOf_le t).1
      rw [scanUdh_walk hfits] at hrest ⊢
      rw [Option.elim_map]
      have hwalk := decodesIn_walk (n := n) (spanOf t) (s := { s with
          thl := t, span := spanOf t, uoff := 1, nst := false, phase := walkPhase 1 (spanOf t) })
        hUD (hudn ▸ hfits) hspan (by simp only; omega) rfl
        fun nst hnst => hrest _ (Option.map_eq_some_iff.2 ⟨nst, hnst, rfl⟩)
      exact (DecodesIn.step hne (hseq.trans (execHLen_fits ht (hudn ▸ hfits))) hwalk).mono (by omega)
    · rw [scanUdh_long (by omega)]
      exact .of_raise hne (hseq.trans (execHLen_long ht (by omega)))

/-! The whole decode (R238). -/

/-- What `Decode` does with the fields of a parse (R238). -/
def fieldsResult (tb : Tables) (f : PduFields) : DecodeResult :=
  if f.hp then (scanUdh f.ud).elim (abortResult .structuralHeaderError) fun h =>
    textResult (decodePayload tb f.dcs f.ud f.udl h.span h.nst h.pad)
  else textResult (decodePayload tb f.dcs f.ud f.udl 0 false 0)

theorem decodePdu_eq (tb : Tables) (C : List Byte) :
    decodePdu tb C = (parsePdu C).elim (abortResult .malformedInput) (fieldsResult tb) := by
  rw [decodePdu]
  cases parsePdu C with
  | none => rfl
  | some f =>
    simp only [Option.elim_some, fieldsResult]
    cases scanUdh f.ud <;> rfl

/-- P.UD, the header where there is one, and the payload (R208, R238). -/
theorem decodesIn_userData {s : State} {O : List Byte} (hs : s.phase = .fUd) (hf : s.Fresh) (hu : s.Unscanned)
    (hO : s.OctetsAre O) : DecodesIn (3 * O.length + 4) s
      (fieldsResult Config.tables { hp := s.hp, dcs := s.dcs, udl := s.udl, ud := O.drop s.pos }) := by
  have hseq : seqStep s = execPUd s := by rw [seqStep, hs]
  have hlen : (O.drop s.pos).length ≤ O.length := by simp
  have hUD := hO.userDataIs s.pos
  obtain ⟨hclean, hbitpos, hport, hcap⟩ := hf
  refine .step (by rw [hs]; decide) (hseq.trans (exec_pUd s)) (n := 3 * O.length + 3) ?_
  cases hhp : s.hp with
  | true =>
    exact .mono (n := 2 * O.length + 2 + (O.drop s.pos).length + 1) (decodesIn_header rfl hUD fun h _ =>
      .mono (decodesIn_payload rfl ⟨hclean, hbitpos, hport, hcap⟩ hUD) (by simp only; omega)) (by omega)
  | false =>
    obtain ⟨-, -, hspan, hnst, hpad, -⟩ := hu
    have hresult : fieldsResult Config.tables { hp := false, dcs := s.dcs, udl := s.udl, ud := O.drop s.pos } =
        textResult (decodePayload Config.tables s.dcs (O.drop s.pos) s.udl s.span s.nst s.pad) := by
      rw [hspan, hnst, hpad]
      rfl
    rw [hresult]
    exact .mono (decodesIn_payload rfl ⟨hclean, hbitpos, hport, hcap⟩ hUD) (by omega)

/-- A field that ends at octet `p`: the step raises where that lies behind the string, and goes on to `u` where it does not
(R210). -/
structure PassesField (s : State) (p : Nat) (u : State) : Prop where
  running : s.phase ≠ .done
  short : s.M < p → seqStep s = raise .malformedInput s
  fits : p ≤ s.M → seqStep s = .next u

/-- Where all fields end at octet `e`, the parse fails as soon as `e` lies behind the `m` octets of the string. -/
theorem DecodesIn.of_passesField {n p e m : Nat} {s u : State} {r : DecodeResult} (h : PassesField s p u) (hm : s.M = m)
    (he : p ≤ e) (hrest : p ≤ m → DecodesIn n u (if e ≤ m then r else abortResult .malformedInput)) :
    DecodesIn (n + 1) s (if e ≤ m then r else abortResult .malformedInput) := by
  by_cases hp : p ≤ m
  · exact .step h.running (h.fits (hm ▸ hp)) (hrest hp)
  · rw [if_neg (by omega)]
    exact .of_raise h.running (h.short (by omega))

/-! The seven fields before the user data (R201 to R207). -/

section

variable {s : State} {p : Nat}

theorem passesField_pid (hs : s.phase = .fPid) (hp : s.pos + 1 = p) :
    PassesField s p { s with pos := p, phase := .fDcs } := by
  subst hp
  refine ⟨by rw [hs]; decide, ?_, ?_⟩ <;> rw [seqStep, hs]
  · exact need_short
  · exact need_ok

theorem passesField_scts (hs : s.phase = .fScts) (hp : s.pos + 7 = p) :
    PassesField s p { s with pos := p, phase := .fUdl } := by
  subst hp
  refine ⟨by rw [hs]; decide, ?_, ?_⟩ <;> rw [seqStep, hs]
  · exact need_short
  · exact need_ok

variable {O : List Byte} (hO : s.OctetsAre O)
include hO

theorem passesField_smsc (hs : s.phase = .fSmsc) (hp : s.pos + 1 + (O.getD s.pos 0).toNat = p) :
    PassesField s p { s with pos := p, phase := .fFlags } := by
  subst hp
  refine ⟨by rw [hs]; decide, fun h => ?_, fun h => ?_⟩ <;> rw [seqStep, hs]
  · by_cases hlt : s.pos < s.M
    · rw [execPSmsc_read (hO.read hlt), need_skip_short h]
    · exact need_short (by omega)
  · rw [execPSmsc_read (hO.read (by omega)), need_skip_ok h]
    rfl

theorem passesField_flags (hs : s.phase = .fFlags) (hp : s.pos + 1 = p) :
    PassesField s p { s with hp := udhi (O.getD s.pos 0), pos := p, phase := .fOa } := by
  subst hp
  refine ⟨by rw [hs]; decide, ?_, fun h => ?_⟩ <;> rw [seqStep, hs]
  · exact need_short
  · exact execPFlags_read (hO.read h)

theorem passesField_oa (hs : s.phase = .fOa) (hp : s.pos + 2 + oaOctets (O.getD s.pos 0) = p) :
    PassesField s p { s with pos := p, phase := .fPid } := by
  subst hp
  refine ⟨by rw [hs]; decide, fun h => ?_, fun h => ?_⟩ <;> rw [seqStep, hs]
  · by_cases hlt : s.pos < s.M
    · exact execPOa_short (hO.read hlt) h
    · exact need_short (by omega)
  · exact execPOa_fits (hO.read (by omega)) h

theorem passesField_dcs (hs : s.phase = .fDcs) (hp : s.pos + 1 = p) :
    PassesField s p { s with dcs := O.getD s.pos 0, pos := p, phase := .fScts } := by
  subst hp
  refine ⟨by rw [hs]; decide, ?_, fun h => ?_⟩ <;> rw [seqStep, hs]
  · exact need_short
  · exact execPDcs_read (hO.read h)

theorem passesField_udl (hs : s.phase = .fUdl) (hp : s.pos + 1 = p) :
    PassesField s p { s with udl := O.getD s.pos 0, pos := p, phase := .fUd } := by
  subst hp
  refine ⟨by rw [hs]; decide, ?_, fun h => ?_⟩ <;> rw [seqStep, hs]
  · exact need_short
  · exact execPUdl_read (hO.read h)

end

section

variable {O : List Byte} {n h : Nat} (hn : (O.getD 0 0).toNat = n) (hh : oaOctets (O.getD (n + 2) 0) = h)
include hn hh

/-- The seven fields of a string of octets, each up to where it ends, and what follows them (R211, R238). -/
theorem decodesIn_fields {s : State} (hs : s.phase = .fSmsc) (hpos : s.pos = 0) (hf : s.Fresh) (hu : s.Unscanned)
    (hO : s.OctetsAre O) : DecodesIn (3 * O.length + 11) s (if n + 14 + h ≤ O.length then fieldsResult Config.tables
      { hp := udhi (O.getD (n + 1) 0), dcs := O.getD (n + 5 + h) 0, udl := O.getD (n + 13 + h) 0,
        ud := O.drop (n + 14 + h) } else abortResult .malformedInput) := by
  obtain ⟨hclean, hbitpos, hport, hcap⟩ := hf
  refine .of_passesField (passesField_smsc hO hs (p := n + 1) (by rw [hpos]; omega)) hO.1 (by omega) fun _ => ?_
  refine .of_passesField (passesField_flags hO rfl (p := n + 2) rfl) hO.1 (by omega) fun _ => ?_
  dsimp only
  refine .of_passesField (passesField_oa hO rfl (p := n + 4 + h) (by dsimp only; omega)) hO.1 (by omega) fun _ => ?_
  refine .of_passesField (passesField_pid rfl (p := n + 5 + h) (by dsimp only; omega)) hO.1 (by omega) fun _ => ?_
  refine .of_passesField (passesField_dcs hO rfl (p := n + 6 + h) (by dsimp only; omega)) hO.1 (by omega) fun _ => ?_
  dsimp only
  refine .of_passesField (passesField_scts rfl (p := n + 13 + h) (by dsimp only; omega)) hO.1 (by omega) fun _ => ?_
  refine .of_passesField (passesField_udl hO rfl (p := n + 14 + h) (by dsimp only; omega)) hO.1 (by omega) fun hfits => ?_
  dsimp only
  rw [if_pos hfits]
  exact decodesIn_userData rfl ⟨hclean, hbitpos, hport, hcap⟩ hu hO

/-- The parse by its last bound, for any use of its fields (R211, R213). -/
theorem parsePdu_elim {α : Type} {C : List Byte} (hO : octetsOf C = some O) (z : α) (r : PduFields → α) :
    (parsePdu C).elim z r = if n + 14 + h ≤ O.length then r
      { hp := udhi (O.getD (n + 1) 0), dcs := O.getD (n + 5 + h) 0, udl := O.getD (n + 13 + h) 0,
        ud := O.drop (n + 14 + h) } else z := by
  subst hn hh
  obtain ⟨-, -, hparse⟩ := parseClosedForm C
  obtain ⟨-, -, hshort, hlong⟩ := hparse O hO
  by_cases hfits : (O.getD 0 0).toNat + 14 + oaOctets (O.getD ((O.getD 0 0).toNat + 2) 0) ≤ O.length
  · rw [if_pos hfits, hlong hfits]
    rfl
  · rw [if_neg hfits, hshort (Nat.lt_of_not_le hfits)]
    rfl

end

theorem startSequence_clean (s : State) : (startSequence s).Clean := ⟨rfl, rfl, rfl⟩

theorem startSequence_unscanned (s : State) : (startSequence s).Unscanned :=
  ⟨rfl, rfl, rfl, rfl, rfl, rfl, rfl, rfl, rfl⟩

/-- P.HEX and what follows it, within the step bound (R200, R238, R306). -/
theorem decodesIn_startSequence (s : State) :
    DecodesIn (stepBound s.N) (startSequence s) (decodePdu Config.tables s.chars) := by
  have hne : (startSequence s).phase ≠ .done := by simp
  rw [decodePdu_eq]
  by_cases hhex : s.HexOk
  · obtain ⟨O, hO⟩ := octetsOf_chars_iff.2 hhex
    have hOs := octetsAre_of_octetsOf hO
    have hbound : 3 * O.length + 11 + 1 ≤ stepBound s.N := by
      rw [← hOs.1, State.M, stepBound]
      omega
    rw [parsePdu_elim rfl rfl hO]
    exact .mono (.step hne (execPHex_ok (s := startSequence s) hhex) (decodesIn_fields rfl rfl rfl rfl
      ⟨startSequence_clean s, rfl, rfl, rfl⟩ (startSequence_unscanned s) hOs)) hbound
  · rw [parsePdu_no_octets (octetsOf_chars_of_bad hhex)]
    exact .of_raise hne (execPHex_bad (s := startSequence s) hhex) (n := 4 * s.N + 199)

/-! The input (R46). -/

/-- An operation other than DECODE leaves the input as it is. -/
theorem exec_input {i : Instr} {s t : State} (hi : i ≠ .wholeDecode) (h : exec i s = .next t) :
    t.pdu = s.pdu ∧ t.N = s.N := by
  rcases unitOfInstr_cases i with hP | hH | rfl | hD | ⟨hU, hsel, -⟩
  · rcases parser_frame i s t h hP with rfl | ⟨hpdu, hN, -⟩
    · exact ⟨rfl, rfl⟩
    · exact ⟨hpdu, hN⟩
  · rcases header_frame i s t h hH with rfl | ⟨hpdu, hN, -⟩
    · exact ⟨rfl, rfl⟩
    · exact ⟨hpdu, hN⟩
  · rw [execDSel_frame h]
    exact ⟨rfl, rfl⟩
  · exact absurd hD hi
  · exact ⟨(payload_frame i s t h hU hsel).pdu, (payload_frame i s t h hU hsel).N⟩

/-- The sequencer leaves the input as it is, in every phase. -/
theorem seqStep_input {s t : State} (h : seqStep s = .next t) : t.pdu = s.pdu ∧ t.N = s.N := by
  unfold seqStep at h
  cases hp : s.phase <;> rw [hp] at h
  case idle | done =>
    cases h
    exact ⟨rfl, rfl⟩
  case hexchk => exact exec_input (i := .pHex) (by decide) h
  case fSmsc => exact exec_input (i := .pSmsc) (by decide) h
  case fFlags => exact exec_input (i := .pFlags) (by decide) h
  case fOa => exact exec_input (i := .pOa) (by decide) h
  case fPid => exact exec_input (i := .pPid) (by decide) h
  case fDcs => exact exec_input (i := .pDcs) (by decide) h
  case fScts => exact exec_input (i := .pScts) (by decide) h
  case fUdl => exact exec_input (i := .pUdl) (by decide) h
  case fUd => exact exec_input (i := .pUd) (by decide) h
  case udhLen => exact exec_input (i := .hLen) (by decide) h
  case udhIe => exact exec_input (i := .hIe) (by decide) h
  case udhPad => exact exec_input (i := .hPad) (by decide) h
  case dispatch => exact exec_input (i := .dSel) (by decide) h
  case pay8 => exact exec_input (i := .dOct8) (by decide) h
  case payU => exact exec_input (i := .dUcs2) (by decide) h
  case pay7 => exact ⟨(pay7Step_frame h).pdu, (pay7Step_frame h).N⟩

theorem exec_wholeDecode {s : State} (h : s.busy = false) :
    exec .wholeDecode s = runToDone (stepBound s.N) (startSequence s) := by
  simp [exec, execDecode, h]

/-- Settles O44: DECODE runs the sequencer from the start sequence, which decodes the string within the step bound, and no
step of it touches the input. -/
theorem decodeIsTheFunctionOfTheString : Obligations.DecodeIsTheFunctionOfTheString := by
  intro s hb
  obtain ⟨t, ht, hphase, hdone, hresult⟩ := decodesIn_startSequence s
  obtain ⟨hpdu, hN⟩ := runToDone_keeps (P := fun u => u.pdu = s.pdu ∧ u.N = s.N)
    (fun u v ⟨hpdu, hN⟩ hv => ⟨(seqStep_input hv).1.trans hpdu, (seqStep_input hv).2.trans hN⟩) _
    (startSequence s) t ⟨rfl, rfl⟩ ht
  exact ⟨t, (exec_wholeDecode hb).trans ht, hphase, hdone, hresult, hN, fun a => by rw [hpdu]⟩

end Sys2Proof.Machine
end

section
/-!
PROOF. Exceptions (`60_exceptions.md`): what an abort leaves (R262), and what each unit can raise or note (R260).
-/

namespace Sys2Proof.Machine

/-- The abort entry writes no input register (R46). -/
theorem abort_sameInput (e : ErrCode) (s : State) : SameInput s (abort e s) := ⟨rfl, fun _ => rfl⟩

/-- Settles O5: the state raised is the abort entry's, which writes the code and leaves the input. -/
theorem abortLeavesOnlyTheCode : Obligations.AbortLeavesOnlyTheCode := fun e s =>
  ⟨abort e s, raise_eq e s, abort_aborted e s, abort_sameInput e s⟩

/-! The error code and the fallback flag after an operation of each unit. -/

section
variable {i : Instr} {s t : State} (h : exec i s = .next t)
include h

theorem parser_flags_or_aborted (hi : unitOfInstr i = some .p) :
    (t.err = s.err ∧ t.fb = s.fb) ∨ Aborted .malformedInput t := by
  rcases parser_frame i s t h hi with rfl | ⟨-, -, herr, hfb, -⟩
  · exact .inr (abort_aborted _ s)
  · exact .inl ⟨herr, hfb⟩

theorem header_flags_or_aborted (hi : unitOfInstr i = some .h) :
    (t.err = s.err ∧ t.fb = s.fb) ∨ Aborted .structuralHeaderError t := by
  rcases header_frame i s t h hi with rfl | ⟨-, -, herr, hfb, -⟩
  · exact .inr (abort_aborted _ s)
  · exact .inl ⟨herr, hfb⟩

/-- The frame of the payload units lets `fb` rise; the unpacker's own two operations do not write it (R142). -/
theorem unpacker_flags (hi : unitOfInstr i = some .u) : t.err = s.err ∧ t.fb = s.fb := by
  cases i <;> simp [unitOfInstr] at hi
  case uInit =>
    rw [exec_uInit] at h
    cases h
    exact ⟨rfl, rfl⟩
  case uNext =>
    rcases execUNext_next h with ⟨-, rfl⟩ | ⟨-, v, rfl⟩
    · exact ⟨rfl, rfl⟩
    · exact ⟨rfl, rfl⟩

theorem decoder_flags (hi : unitOfInstr i = some .g ∨ unitOfInstr i = some .d) :
    t.err = s.err ∧ (s.fb = true → t.fb = true) := by
  by_cases hsel : i = .dSel
  · subst hsel
    rw [execDSel_frame h]
    exact ⟨rfl, id⟩
  · have hframe : PayloadFrame s t := payload_frame i s t h (hi.imp_right .inl) hsel
    exact ⟨hframe.err, hframe.fb⟩

end

/-- Settles O56: unit by unit, from what the unit's operations leave and what they raise. -/
theorem eachUnitRaisesItsOwnKind : Obligations.EachUnitRaisesItsOwnKind := fun _ _ _ h =>
  ⟨parser_flags_or_aborted h, header_flags_or_aborted h, unpacker_flags h, decoder_flags h⟩

end Sys2Proof.Machine
end

section
/-!
PROOF. The host's operations between steps (`70_reset_and_hazards.md` R285, R295 to R300): what they write and keep, that a
start given to a running decode changes nothing, and that a result at rest stays.
-/

namespace Sys2Proof.Machine

/-! A start while a decode runs (R299). -/

/-- A running decode drops the start event before its step, so the step does not depend on it. -/
theorem step_startIn_of_busy {s : State} (hr : s.resetIn = false) (hb : s.busy = true) (e : Bool) :
    step { s with startIn := e } = seqStep (ignoreStart s) :=
  step_busy (s := { s with startIn := e }) hr hb

theorem exec_wholeDecode_busy {s : State} (h : s.busy = true) : exec .wholeDecode s = .next s := by
  simp [exec, execDecode, h]

/-- Settles O3: with or without the event the step is the running decode's own, and DECODE turns the command away. -/
theorem startWhileRunningIsIgnored : Obligations.StartWhileRunningIsIgnored := fun _ hr hb =>
  ⟨(step_startIn_of_busy hr hb true).trans (step_startIn_of_busy hr hb false).symm, exec_wholeDecode_busy hb⟩

/-! The block at rest (R285, R300). -/

theorem step_quiet {s : State} (hr : s.resetIn = false) (hb : s.busy = false) (hs : s.startIn = false) :
    step s = .next s := by
  simp [step, hr, hb, hs]

/-- Settles O4: a step without an event is none, and a load, open until the next start, writes `PDU` and `N` only. -/
theorem resultStaysUntilTheNextEvent : Obligations.ResultStaysUntilTheNextEvent := fun _ hb =>
  ⟨fun hr hs => step_quiet hr hb hs, fun hs cs =>
    ⟨_, hostLoad_open (inputLocked_eq_false.2 ⟨hb, hs⟩) cs, rfl, rfl, rfl, rfl, rfl⟩⟩

/-! The host's writes: open without a running decode and a waiting start, closed else (R297, log 28). -/

theorem inputLocked_eq_true {s : State} : s.inputLocked = true ↔ s.busy = true ∨ s.startIn = true := by
  simp [State.inputLocked]

theorem hostWriteChar_open {s : State} (h : s.inputLocked = false) (a : Nat) (b : Byte) :
    hostWriteChar a b s = some { s with pdu := s.pdu.write a b } := by simp [hostWriteChar, h]

theorem hostWriteChar_locked {s : State} (h : s.inputLocked = true) (a : Nat) (b : Byte) :
    hostWriteChar a b s = none := by simp [hostWriteChar, h]

theorem hostWriteLength_open {s : State} (h : s.inputLocked = false) (n : Nat) :
    hostWriteLength n s = some { s with N := n } := by simp [hostWriteLength, h]

theorem hostWriteLength_locked {s : State} (h : s.inputLocked = true) (n : Nat) : hostWriteLength n s = none := by
  simp [hostWriteLength, h]

/-- The shape the three writes share: one that is accepted found no decode running, and answers the state it writes. -/
theorem write_accepted {s t u : State} (h : (if s.inputLocked then none else some u) = some t) :
    s.busy = false ∧ t = u := by
  cases hl : s.inputLocked with
  | true => simp [hl] at h
  | false => exact ⟨(inputLocked_eq_false.1 hl).1, by simpa [hl] using h.symm⟩

theorem hostLoad_eq_some {s t : State} {cs : List Byte} (h : hostLoad cs s = some t) :
    s.busy = false ∧ t = { s with pdu := Mem.store s.pdu 0 cs, N := cs.length } := write_accepted h

theorem hostWriteChar_eq_some {s t : State} {a : Nat} {b : Byte} (h : hostWriteChar a b s = some t) :
    s.busy = false ∧ t = { s with pdu := s.pdu.write a b } := write_accepted h

theorem hostWriteLength_eq_some {s t : State} {n : Nat} (h : hostWriteLength n s = some t) :
    s.busy = false ∧ t = { s with N := n } := write_accepted h

/-! The invariant under the host's operations. -/

theorem busy_eq_false {s : State} : s.busy = false ↔ s.phase = .idle ∨ s.phase = .done := by
  cases h : s.phase <;> simp [State.busy, h]

theorem State.Inv.wf {s : State} (h : s.Inv) : s.pdu.wf = true := h.1

/-- The events are no part of the invariant. -/
theorem hostStart_inv {s : State} (h : s.Inv) : (hostStart s).Inv := h

theorem hostReset_inv {s : State} (h : s.Inv) : (hostReset s).Inv := h

/-- What IDLE and DONE rely on does not speak of the input, so at rest any canonical buffer and any `N` will do. -/
theorem inv_withInput {s : State} (h : s.Inv) (hb : s.busy = false) {m : Mem} (hm : m.wf = true) (n : Nat) :
    ({ s with pdu := m, N := n } : State).Inv := by
  obtain ⟨-, hdone, hport, hcap, hfits, hphase⟩ := h
  refine ⟨hm, hdone, hport, hcap, hfits, ?_⟩
  rcases busy_eq_false.1 hb with hp | hp <;> simpa [State.PhaseInv, hp, State.Clean] using hphase

/-- The string of a buffer that `cs` has just been stored in from location 0 on. -/
theorem chars_store {m : Mem} (hm : m.wf = true) (s : State) (cs : List Byte) :
    ({ s with pdu := m.store 0 cs, N := cs.length } : State).chars = cs := by
  refine List.ext_getElem (by simp [State.chars]) fun i hi hcs => ?_
  simp [State.chars, State.chr, read_store hm, hcs]

theorem hostLoad_inv_chars {s t : State} {cs : List Byte} (h : s.Inv) (hw : hostLoad cs s = some t) :
    t.Inv ∧ t.chars = cs := by
  obtain ⟨hb, rfl⟩ := hostLoad_eq_some hw
  exact ⟨inv_withInput h hb (store_wf h.wf 0 cs) cs.length, chars_store h.wf s cs⟩

theorem hostWriteChar_inv_chr {s t : State} {a : Nat} {b : Byte} (h : s.Inv) (hw : hostWriteChar a b s = some t) :
    t.Inv ∧ t.chr a = b ∧ (∀ x, x ≠ a → t.chr x = s.chr x) ∧ t.N = s.N := by
  obtain ⟨hb, rfl⟩ := hostWriteChar_eq_some hw
  exact ⟨inv_withInput h hb (write_wf h.wf a b) s.N, read_write_same h.wf a b,
    fun x hx => read_write_ne h.wf b hx.symm, rfl⟩

theorem hostWriteLength_inv_chr {s t : State} {n : Nat} (h : s.Inv) (hw : hostWriteLength n s = some t) :
    t.Inv ∧ t.N = n ∧ ∀ x, t.chr x = s.chr x := by
  obtain ⟨hb, rfl⟩ := hostWriteLength_eq_some hw
  exact ⟨inv_withInput h hb h.wf n, rfl, fun _ => rfl⟩

/-- Settles O52: an event is outside the invariant, a write is accepted only at rest, where the invariant asks of the input
no more than the canonical form. -/
theorem hostKeepsTheInvariant : Obligations.HostKeepsTheInvariant := by
  intro s h
  refine ⟨hostStart_inv h, hostReset_inv h, fun _ _ => hostLoad_inv_chars h, fun _ _ _ => hostWriteChar_inv_chr h,
    fun _ _ => hostWriteLength_inv_chr h, fun cs a b n => ⟨fun hb hs => ?_, fun hlocked => ?_⟩⟩
  · have hopen : s.inputLocked = false := inputLocked_eq_false.2 ⟨hb, hs⟩
    exact ⟨⟨_, hostLoad_open hopen cs⟩, ⟨_, hostWriteChar_open hopen a b⟩, ⟨_, hostWriteLength_open hopen n⟩⟩
  · have hclosed : s.inputLocked = true := inputLocked_eq_true.2 hlocked
    exact ⟨hostLoad_locked hclosed cs, hostWriteChar_locked hclosed a b, hostWriteLength_locked hclosed n⟩

end Sys2Proof.Machine
end

section
/-!
PROOF. What a step of a running decode does in every state that meets the invariant: it answers a next state, which meets
the invariant again and whose text fits the string (R23, R47, R60, R107). From this the statements about whole steps: the
invariant itself, that no read leaves its domain, the bound on the text, and that an abort finds nothing emitted (R263).
-/

namespace Sys2Proof.Machine

/-! The invariant in two parts. -/

/-- The invariant without the canonical form of the buffer, which no operation writes. -/
def State.Sound (s : State) : Prop :=
  (s.done = true ↔ s.phase = .done) ∧ s.port = none ∧ s.capValid = true ∧ s.Fits ∧ s.PhaseInv

theorem inv_iff_sound {s : State} : s.Inv ↔ s.pdu.wf = true ∧ s.Sound := Iff.rfl

/-- What the phases of a running decode have in common. -/
def State.Running (s : State) : Prop := s.done = false ∧ s.port = none ∧ s.capValid = true ∧ s.Fits

theorem State.Sound.running {s : State} (h : s.Sound) (hp : s.phase ≠ .done) : s.Running := by
  obtain ⟨hdone, hport, hcap, hfits, -⟩ := h
  exact ⟨Bool.eq_false_iff.2 (mt hdone.1 hp), hport, hcap, hfits⟩

theorem State.Running.sound {s : State} (h : s.Running) (hp : s.phase ≠ .done) (hinv : s.PhaseInv) : s.Sound := by
  obtain ⟨hdone, hport, hcap, hfits⟩ := h
  refine ⟨⟨fun hd => ?_, fun hd => absurd hd hp⟩, hport, hcap, hfits, hinv⟩
  exact absurd (hdone.symm.trans hd) Bool.false_ne_true

theorem startSequence_sound (s : State) : (startSequence s).Sound :=
  ⟨by simp, rfl, rfl, by simp [State.Fits], startSequence_clean s, startSequence_unscanned s⟩

/-- Settles O49: the reset values by evaluation. -/
theorem resetMeetsTheInvariant : Obligations.ResetMeetsTheInvariant :=
  ⟨rfl, by decide, rfl, rfl, by unfold State.Fits; decide, rfl, rfl, rfl⟩

/-- A reset event leaves the table of R50, and a buffer whose free contents are stored in canonical form. -/
theorem resetSequence_inv (s : State) : (resetSequence s).Inv :=
  ⟨store_wf rfl 0 _, by simp, rfl, rfl, by simp [State.Fits], rfl, rfl, rfl⟩

/-! Where a step of a running decode goes. -/

/-- The next state `t` is sound, its text fits the string (R47), and the events are as they were. -/
structure RunsTo (s t : State) : Prop where
  sound : t.Sound
  text : t.T ≤ t.N
  startIn : t.startIn = s.startIn
  resetIn : t.resetIn = s.resetIn

/-- The result `r` is a next state, and one a run may go to. -/
def RunsOn (s : State) (r : Result) : Prop := ∃ t, r = .next t ∧ RunsTo s t

theorem State.Clean.T_eq {s : State} (h : s.Clean) : s.T = 0 := by
  obtain ⟨-, -, htxt⟩ := h
  rw [State.T, htxt, List.length_nil]

section

variable {s u : State} (hrun : u.Running)
include hrun

theorem RunsTo.of_clean (hp : u.phase ≠ .done) (hinv : u.PhaseInv) (hclean : u.Clean) (hstart : u.startIn = s.startIn)
    (hreset : u.resetIn = s.resetIn) : RunsTo s u :=
  ⟨hrun.sound hp hinv, by rw [hclean.T_eq]; exact Nat.zero_le _, hstart, hreset⟩

theorem RunsTo.of_finish (herr : u.err = .ok) (hT : u.T ≤ u.N) (hstart : u.startIn = s.startIn)
    (hreset : u.resetIn = s.resetIn) : RunsTo s (finish u) := by
  obtain ⟨-, hport, hcap, hfits⟩ := hrun
  exact ⟨⟨by simp, hport, hcap, hfits, fun h => absurd herr h⟩, hT, hstart, hreset⟩

theorem RunsOn.of_raise (e : ErrCode) : RunsOn u (raise e u) := by
  obtain ⟨-, -, hcap, -⟩ := hrun
  exact ⟨abort e u, rfl, ⟨by simp, rfl, hcap, abort_fits e u, fun _ => ⟨rfl, rfl⟩⟩, Nat.zero_le _, rfl, rfl⟩

end

/-! The check of the string and the field parser. -/

/-- What the eight field phases rely on. -/
def State.InFields (s : State) : Prop := s.Clean ∧ s.Unscanned ∧ s.HexOk ∧ s.pos ≤ s.M

/-- The phases of the eight fields (R23). -/
def Phase.isField : Phase → Bool
  | .fSmsc | .fFlags | .fOa | .fPid | .fDcs | .fScts | .fUdl | .fUd => true
  | _ => false

theorem phaseInv_of_isField {s : State} (hp : s.phase.isField = true) : s.PhaseInv ↔ s.InFields := by
  unfold State.PhaseInv
  cases h : s.phase
  case fSmsc | fFlags | fOa | fPid | fDcs | fScts | fUdl | fUd => rfl
  all_goals simp [h, Phase.isField] at hp

theorem execPHex_runsOn {s : State} (hrun : s.Running) (hclean : s.Clean) (hunscanned : s.Unscanned) :
    RunsOn s (execPHex s) := by
  by_cases hhex : s.HexOk
  · rw [execPHex_ok hhex]
    exact ⟨_, rfl, .of_clean hrun (by simp) ⟨hclean, hunscanned, hhex, Nat.zero_le _⟩ hclean rfl rfl⟩
  · rw [execPHex_bad hhex]
    exact .of_raise hrun _

section

variable {s : State} (hrun : s.Running) (hf : s.InFields)
include hrun hf

/-- A field that ends at octet `p` is passed, or the string is too short for it. -/
theorem RunsOn.of_passesField {a : Bool} {b c : Byte} {p : Nat} {q : Phase}
    (h : PassesField s p { s with hp := a, dcs := b, udl := c, pos := p, phase := q }) (hq : q.isField = true) :
    RunsOn s (seqStep s) := by
  obtain ⟨hclean, hunscanned, hhex, -⟩ := hf
  by_cases hp : p ≤ s.M
  · rw [h.fits hp]
    refine ⟨_, rfl, .of_clean hrun ?_ ((phaseInv_of_isField hq).2 ⟨hclean, hunscanned, hhex, hp⟩) hclean rfl rfl⟩
    rintro rfl
    cases hq
  · rw [h.short (by omega)]
    exact .of_raise hrun _

theorem execPUd_runsOn : RunsOn s (execPUd s) := by
  obtain ⟨hclean, hunscanned, hhex, hle⟩ := hf
  obtain ⟨-, -, hspan, hnst, hpad, hbitpos, hcnt, hcap, hesc⟩ := id hunscanned
  have hrest : s.pos + (s.M - s.pos) = s.M := by omega
  refine ⟨_, exec_pUd s, ?_⟩
  cases hhp : s.hp with
  | true => exact .of_clean hrun (by simp) ⟨hclean, hunscanned, hhex, rfl, hrest⟩ hclean rfl rfl
  | false =>
    have hscanned : State.HeaderScanned
        { s with hp := false, ud0 := s.pos, udn := s.M - s.pos, phase := .dispatch } := by
      refine ⟨⟨hhex, hrest, ?_⟩, ?_, ?_, fun _ => ⟨hspan, hnst⟩, nofun⟩ <;> simp [hspan, hpad, padFor]
    exact .of_clean hrun (by simp) ⟨hclean, hscanned, hbitpos, hcnt, hcap, hesc⟩ hclean rfl rfl

theorem seqStep_field_runsOn (hp : s.phase.isField = true) : RunsOn s (seqStep s) := by
  obtain ⟨-, -, hhex, -⟩ := id hf
  obtain ⟨O, hoctets⟩ := octetsOf_chars_iff.2 hhex
  have hO := octetsAre_of_octetsOf hoctets
  match hs : s.phase, hp with
  | .fSmsc, _ => exact .of_passesField hrun hf (passesField_smsc hO hs rfl) rfl
  | .fFlags, _ => exact .of_passesField hrun hf (passesField_flags hO hs rfl) rfl
  | .fOa, _ => exact .of_passesField hrun hf (passesField_oa hO hs rfl) rfl
  | .fPid, _ => exact .of_passesField hrun hf (passesField_pid hs rfl) rfl
  | .fDcs, _ => exact .of_passesField hrun hf (passesField_dcs hO hs rfl) rfl
  | .fScts, _ => exact .of_passesField hrun hf (passesField_scts hs rfl) rfl
  | .fUdl, _ => exact .of_passesField hrun hf (passesField_udl hO hs rfl) rfl
  | .fUd, _ =>
    rw [seqStep, hs]
    exact execPUd_runsOn hrun hf

end

/-! The header. -/

/-- The walk's phases rely on the header that has been read and on a cursor inside it. -/
theorem RunsTo.of_walk {s u : State} (hrun : u.Running) (h : u.HeaderRead) (h1 : 1 ≤ u.uoff) (hle : u.uoff ≤ u.span)
    (hs : u.phase = walkPhase u.uoff u.span) (hstart : u.startIn = s.startIn) (hreset : u.resetIn = s.resetIn) :
    RunsTo s u := by
  by_cases hlt : u.uoff < u.span
  · rw [walkPhase, if_pos hlt] at hs
    refine .of_clean hrun (by simp [hs]) ?_ h.1 hstart hreset
    rw [State.PhaseInv, hs]
    exact ⟨h, h1, hlt⟩
  · rw [walkPhase, if_neg hlt] at hs
    refine .of_clean hrun (by simp [hs]) ?_ h.1 hstart hreset
    rw [State.PhaseInv, hs]
    exact ⟨h, by omega⟩

theorem execHLen_runsOn {s : State} (hrun : s.Running) (hclean : s.Clean) (hunscanned : s.Unscanned) (hhex : s.HexOk)
    (hhp : s.hp = true) (hud : s.ud0 + s.udn = s.M) : RunsOn s (execHLen s) := by
  by_cases hn : s.udn = 0
  · rw [execHLen_empty hn]
    exact .of_raise hrun _
  · obtain ⟨t, ht⟩ := ud_isSome hhex hud (k := 0) (by omega)
    by_cases hfits : spanOf t ≤ s.udn
    · rw [execHLen_fits ht hfits]
      obtain ⟨-, -, -, -, hpad, hbitpos, hcnt, hcap, hesc⟩ := hunscanned
      obtain ⟨hdone, hport, hcv, -, hcnt9, -, hcap9⟩ := hrun
      have hspan := spanOf_le t
      have hrun' : State.Running { s with
          thl := t, span := spanOf t, uoff := 1, nst := false, phase := walkPhase 1 (spanOf t) } :=
        ⟨hdone, hport, hcv, Nat.one_lt_two_pow (by decide), hcnt9, by simp only; omega, hcap9⟩
      exact ⟨_, rfl, .of_walk hrun' ⟨hclean, ⟨hhex, hud, hfits⟩, hhp, rfl, hpad, hbitpos, hcnt, hcap, hesc⟩
        le_rfl hspan.1 rfl rfl rfl⟩
    · rw [execHLen_long ht (by omega)]
      exact .of_raise hrun _

section

variable {s : State} (hrun : s.Running) (h : s.HeaderRead)
include hrun h

theorem execHIe_runsOn : RunsOn s (execHIe s) := by
  obtain ⟨-, ⟨hhex, hud, hle⟩, -⟩ := id h
  by_cases hroom : s.uoff + 1 < s.span
  · obtain ⟨id, hid⟩ := ud_isSome hhex hud (k := s.uoff) (by omega)
    obtain ⟨n, hn⟩ := ud_isSome hhex hud (k := s.uoff + 1) (by omega)
    rw [execHIe_read hroom hid hn]
    by_cases hfits : s.uoff + 2 + n.toNat ≤ s.span
    · rw [walk_ok hroom hfits]
      obtain ⟨hdone, hport, hcv, -, hcnt9, hspan9, hcap9⟩ := hrun
      have hrun' : State.Running { s with
          nst := s.nst || id == 0x24, uoff := s.uoff + 2 + n.toNat,
          phase := if s.uoff + 2 + n.toNat < s.span then .udhIe else .udhPad } :=
        ⟨hdone, hport, hcv, by simp only; omega, hcnt9, hspan9, hcap9⟩
      exact ⟨_, rfl, .of_walk hrun' h (by simp only; omega) hfits rfl rfl rfl⟩
    · rw [walk_bad (.inr (by omega))]
      exact .of_raise hrun _
  · rw [execHIe_short (by omega)]
    exact .of_raise hrun _

theorem execHPad_runsOn : RunsOn s (execHPad s) := by
  obtain ⟨hclean, hwindow, hhp, hspan, -, hbitpos, hcnt, hcap, hesc⟩ := h
  have hle : s.span ≤ 256 := hspan ▸ (spanOf_le s.thl).2
  have hscanned : State.HeaderScanned { s with pad := BitVec.ofNat 3 (padFor s.span), phase := .dispatch } :=
    ⟨hwindow, hle, rfl, fun hno => absurd (hno.symm.trans hhp) Bool.false_ne_true, fun _ => hspan⟩
  exact ⟨_, exec_hPad s, .of_clean hrun (by simp) ⟨hclean, hscanned, hbitpos, hcnt, hcap, hesc⟩ hclean rfl rfl⟩

end

/-! The payload. -/

theorem execDSel_runsOn {s : State} (hrun : s.Running) (hclean : s.Clean) (hscanned : s.HeaderScanned)
    (hbitpos : s.bitpos = 0) : RunsOn s (execDSel s) := by
  obtain ⟨herr, hfb, -⟩ := id hclean
  have hT : s.T = 0 := hclean.T_eq
  have hstart : s.bitpos ≤ s.payLen := hbitpos ▸ Nat.zero_le _
  cases hmode : payloadMode s.dcs with
  | oct8 =>
    rw [execDSel_oct8 hmode]
    exact ⟨_, rfl, .of_clean hrun (by simp) ⟨herr, hscanned, hstart, hT.trans hbitpos.symm⟩ hclean rfl rfl⟩
  | ucs2 =>
    rw [execDSel_ucs2 hmode]
    exact ⟨_, rfl, .of_clean hrun (by simp) ⟨herr, hscanned, hstart, (hT.trans hbitpos.symm).le⟩ hclean rfl rfl⟩
  | gsm7 =>
    rw [execDSel_gsm7 hmode]
    have hcap := capFor_le s.udl s.span
    obtain ⟨hdone, hport, hcv, huoff9, -, hspan9, -⟩ := hrun
    have hrun' : State.Running { s with
        cap := capFor s.udl s.span, bitpos := s.pad.toNat, cnt := 0, esc := false, phase := .pay7 } :=
      ⟨hdone, hport, hcv, huoff9, Nat.two_pow_pos 9, hspan9, by simp only; omega⟩
    exact ⟨_, rfl, .of_clean hrun' (by simp)
      ⟨herr, hfb, hscanned, rfl, rfl, Nat.zero_le _, .inl rfl, hT.le⟩ hclean rfl rfl⟩

/-- The payload lies in the string, and an octet is two characters (R22, R227). -/
theorem State.HeaderScanned.payLen_le {s : State} (h : s.HeaderScanned) : 2 * s.payLen ≤ s.N := by
  obtain ⟨⟨-, hud, -⟩, -⟩ := h
  simp only [State.payLen, State.M] at hud ⊢
  omega

/-- The payload as a list, where every octet of it can be read. -/
theorem State.Window.exists_payloadIs {s : State} (h : s.Window) : ∃ B, s.PayloadIs B := by
  obtain ⟨hhex, hud, hspan⟩ := h
  obtain ⟨O, hO⟩ := octetsOf_chars_iff.2 hhex
  have hUD := (octetsAre_of_octetsOf hO).userDataIs s.ud0
  rw [show s.M - s.ud0 = s.udn by omega] at hUD
  exact ⟨_, State.UserDataIs.payloadIs (s := s) hUD⟩

section

variable {s : State} (hrun : s.Running) (herr : s.err = .ok) (hscanned : s.HeaderScanned)
include hrun herr hscanned

theorem finish_runsTo (hT : s.T ≤ s.payLen) : RunsTo s (finish s) :=
  .of_finish hrun herr (by have := hscanned.payLen_le; omega) rfl rfl

/-- A payload step of at least one octet emits one code point, so it keeps the text within the octets taken. -/
theorem payloadStep_runsTo {c : CodePoint} {sub : Bool} {k : Nat} (hT : s.T ≤ s.bitpos) (hk : 0 < k)
    (hle : s.bitpos + k ≤ s.payLen) (hmode : s.phase = .payU ∨ s.phase = .pay8 ∧ k = 1 ∧ s.T = s.bitpos) :
    RunsTo s (payloadStep c sub k s) := by
  have hlen := hscanned.payLen_le
  have htext : (s.txt ++ [c]).length = s.T + 1 := List.length_append
  by_cases hmore : s.bitpos + k < s.payLen
  · have hstep : payloadStep c sub k s = { s with txt := s.txt ++ [c], fb := s.fb || sub, bitpos := s.bitpos + k } := by
      simp [payloadStep, hmore]
    rw [hstep]
    refine ⟨State.Running.sound hrun ?_ ?_, ?_, rfl, rfl⟩
    · rcases hmode with hp | ⟨hp, -⟩ <;> simp [hp]
    · rcases hmode with hp | ⟨hp, rfl, hTeq⟩ <;> simp only [State.PhaseInv, hp]
      · exact ⟨herr, hscanned, hle, htext.trans_le (show s.T + 1 ≤ s.bitpos + k by omega)⟩
      · exact ⟨herr, hscanned, hle, htext.trans (congrArg (· + 1) hTeq)⟩
    · exact htext.trans_le (show s.T + 1 ≤ s.N by omega)
  · have hstep : payloadStep c sub k s =
        finish { s with txt := s.txt ++ [c], fb := s.fb || sub, bitpos := s.bitpos + k } := by
      simp [payloadStep, hmore, finish]
    rw [hstep]
    exact .of_finish hrun herr (htext.trans_le (show s.T + 1 ≤ s.N by omega)) rfl rfl

theorem seqStep_pay8_runsOn (hs : s.phase = .pay8) (hle : s.bitpos ≤ s.payLen) (hT : s.T = s.bitpos) :
    RunsOn s (seqStep s) := by
  rw [seqStep, hs]
  by_cases hlt : s.bitpos < s.payLen
  · obtain ⟨b, hb⟩ := pay_isSome hscanned.1 hlt
    exact ⟨_, execDOct8_read hlt hb,
      payloadStep_runsTo hrun herr hscanned hT.le Nat.one_pos hlt (.inr ⟨hs, rfl, hT⟩)⟩
  · exact ⟨_, execDOct8_empty (by omega), finish_runsTo hrun herr hscanned (hT.trans_le hle)⟩

theorem seqStep_payU_runsOn (hs : s.phase = .payU) (hle : s.bitpos ≤ s.payLen) (hT : s.T ≤ s.bitpos) :
    RunsOn s (seqStep s) := by
  obtain ⟨B, hB⟩ := hscanned.1.exists_payloadIs
  by_cases hlt : s.bitpos < s.payLen
  · obtain ⟨c, sub, k, hk, hfits, hstep, -⟩ := ucs2_straightMode.step hs hB (hB.1 ▸ hlt)
    exact ⟨_, hstep, payloadStep_runsTo hrun herr hscanned hT hk (hB.1 ▸ hfits) (.inl hs)⟩
  · exact ⟨_, ucs2_straightMode.empty hs (by omega), finish_runsTo hrun herr hscanned (hT.trans hle)⟩

end

/-- A septet of `U` ends the text, or `G` emits at most one code point for it and notes no fallback (R152 to R155, R158). -/
theorem SeptetEffect.of_index {v : Byte} {s t : State} (hv : v.toNat ≤ 127) (h : SeptetEffect v s t) :
    t = finish (consume s) ∨
    ∃ out e, out.length ≤ s.T + 1 ∧ t = { s with txt := out, esc := e, port := none } := by
  cases h with
  | ended => exact .inl rfl
  | escaped => exact .inr ⟨s.txt, true, Nat.le_succ _, rfl⟩
  | shifted c => exact .inr ⟨s.txt ++ [c], false, List.length_append.le, rfl⟩
  | basic e => exact .inr ⟨s.txt ++ [_], e, List.length_append.le, rfl⟩
  | replaced e hno => omega

/-- What PAY_7 relies on beyond the header and the flags. -/
structure State.AtUnpacker (s : State) : Prop where
  cap : s.cap = capFor s.udl s.span
  cursor : s.bitpos = s.pad.toNat + 7 * s.cnt
  count : s.cnt ≤ s.cap
  inside : s.cnt = 0 ∨ s.bitpos ≤ 8 * s.payLen
  text : s.T ≤ s.cnt

theorem pay7Step_runsOn {s : State} (hs : s.phase = .pay7) (hrun : s.Running) (herr : s.err = .ok) (hfb : s.fb = false)
    (hscanned : s.HeaderScanned) (h : s.AtUnpacker) : RunsOn s (pay7Step s) := by
  obtain ⟨hdone, hport, hcv, huoff9, hcnt9, hspan9, hcap9⟩ := id hrun
  obtain ⟨B, hB⟩ := hscanned.1.exists_payloadIs
  have hat : AtSeptet s B := ⟨hB, hport, hcv, h.cursor⟩
  have hlen := hscanned.payLen_le
  obtain ⟨hcap, hcursor, hcount, hinside, htext⟩ := h
  by_cases hlt : s.cnt < (unpack B s.pad (some s.cap)).length
  · obtain ⟨hroom, hwant⟩ := lt_unpack_length_iff.1 hlt
    rw [← hB.1] at hroom
    rw [hat.pay7Step_septet (List.drop_eq_getElem_cons hlt)]
    obtain ⟨t, ht⟩ := septetOp_total (portValue (unpack B s.pad (some s.cap))[s.cnt]) { s with
      bitpos := s.bitpos + 7, cnt := s.cnt + 1, port := some (portValue (unpack B s.pad (some s.cap))[s.cnt]) }
    have hfits : s.uoff < 2 ^ 9 ∧ s.cnt + 1 < 2 ^ 9 ∧ s.span < 2 ^ 9 ∧ s.cap < 2 ^ 9 :=
      ⟨huoff9, by omega, hspan9, hcap9⟩
    refine ⟨t, ht, ?_⟩
    rcases (septetOp_next ht).of_index (portValue_le _) with rfl | ⟨out, e, hout, rfl⟩
    · exact .of_finish (u := consume _) ⟨hdone, rfl, hcv, hfits⟩ herr
        (show s.T ≤ s.N by omega) rfl rfl
    · have hout : out.length ≤ s.T + 1 := hout
      refine ⟨State.Running.sound ⟨hdone, rfl, hcv, hfits⟩ (by simp [hs]) ?_, ?_, rfl, rfl⟩
      · simp only [State.PhaseInv, hs]
        exact ⟨herr, hfb, hscanned, hcap, by omega, hwant, .inr (by rw [hcursor]; exact hroom),
          hout.trans (Nat.succ_le_succ htext)⟩
      · exact hout.trans (show s.T + 1 ≤ s.N by omega)
  · rw [hat.pay7Step_exhausted (by omega)]
    exact ⟨_, rfl, .of_finish hrun herr (by omega) rfl rfl⟩

/-! Every phase. -/

/-- The sequencer's step of a running decode in a sound state (R23, R239). -/
theorem seqStep_runsOn {s : State} (h : s.Sound) (hb : s.busy = true) : RunsOn s (seqStep s) := by
  have hrun : s.Running := h.running fun hp => by simp [State.busy, hp] at hb
  obtain ⟨-, -, -, -, hinv⟩ := h
  cases hs : s.phase
  case idle | done => simp [State.busy, hs] at hb
  case fSmsc | fFlags | fOa | fPid | fDcs | fScts | fUdl | fUd =>
    have hp : s.phase.isField = true := by rw [hs]; rfl
    exact seqStep_field_runsOn hrun ((phaseInv_of_isField hp).1 hinv) hp
  all_goals rw [State.PhaseInv, hs] at hinv
  case pay8 =>
    obtain ⟨herr, hscanned, hle, hT⟩ := hinv
    exact seqStep_pay8_runsOn hrun herr hscanned hs hle hT
  case payU =>
    obtain ⟨herr, hscanned, hle, hT⟩ := hinv
    exact seqStep_payU_runsOn hrun herr hscanned hs hle hT
  all_goals rw [seqStep, hs]
  case hexchk => exact execPHex_runsOn hrun hinv.1 hinv.2
  case udhLen =>
    obtain ⟨hclean, hunscanned, hhex, hhp, hud⟩ := hinv
    exact execHLen_runsOn hrun hclean hunscanned hhex hhp hud
  case udhIe => exact execHIe_runsOn hrun hinv.1
  case udhPad => exact execHPad_runsOn hrun hinv.1
  case dispatch =>
    obtain ⟨hclean, hscanned, hbitpos, -⟩ := hinv
    exact execDSel_runsOn hrun hclean hscanned hbitpos
  case pay7 =>
    obtain ⟨herr, hfb, hscanned, hcap, hcursor, hcount, hinside, htext⟩ := hinv
    exact pay7Step_runsOn hs hrun herr hfb hscanned ⟨hcap, hcursor, hcount, hinside, htext⟩

/-! Steps. -/

theorem step_busy_runsOn {s : State} (h : s.Inv) (hr : s.resetIn = false) (hb : s.busy = true) :
    ∃ t, step s = .next t ∧ RunsTo (ignoreStart s) t ∧ t.pdu = s.pdu ∧ t.N = s.N := by
  obtain ⟨t, ht, hto⟩ := seqStep_runsOn (s := ignoreStart s) (inv_iff_sound.1 h).2 hb
  obtain ⟨hpdu, hN⟩ := seqStep_input ht
  exact ⟨t, (step_busy hr hb).trans ht, hto, hpdu, hN⟩

/-- A step of a state that meets the invariant answers one that meets it. -/
theorem step_inv {s : State} (h : s.Inv) : ∃ t, step s = .next t ∧ t.Inv := by
  rcases step_cases s with ⟨-, hstep⟩ | ⟨hr, hb, -⟩ | ⟨-, -, -, hstep⟩ | ⟨-, -, -, hstep⟩
  · exact ⟨_, hstep, resetSequence_inv s⟩
  · obtain ⟨t, ht, hto, hpdu, -⟩ := step_busy_runsOn h hr hb
    exact ⟨t, ht, inv_iff_sound.2 ⟨hpdu ▸ h.wf, hto.sound⟩⟩
  · exact ⟨_, hstep, inv_iff_sound.2 ⟨h.wf, startSequence_sound s⟩⟩
  · exact ⟨_, hstep, h⟩

/-- Settles O50: a reset and a start leave their tables, a step of a running decode goes by its phase. -/
theorem stepKeepsTheInvariant : Obligations.StepKeepsTheInvariant := by
  intro s t h ht
  obtain ⟨t', ht', hinv⟩ := step_inv h
  obtain rfl := Host.Outcome.next.inj (ht.symm.trans ht')
  exact hinv

/-- Settles O51: what each phase relies on makes every octet its operation reads readable. -/
theorem noReadLeavesItsDomain : Obligations.NoReadLeavesItsDomain := fun _ h =>
  (step_inv h).imp fun _ ht => ht.1

/-- Settles O53: every phase emits at most one code point for what it takes of the payload. -/
theorem textNeverOverflows : Obligations.TextNeverOverflows := by
  intro s t h hb hr ht
  obtain ⟨t', ht', hto, -, hN⟩ := step_busy_runsOn h hr hb
  obtain rfl := Host.Outcome.next.inj (ht.symm.trans ht')
  exact hN ▸ hto.text

/-! Aborts. -/

/-- Nothing is emitted, or a payload mode runs without an error code, or it is DONE (R263). -/
theorem State.PhaseInv.cases {s : State} (h : s.PhaseInv) :
    s.Clean ∨ (s.err = .ok ∧ (s.phase = .pay8 ∨ s.phase = .payU ∨ s.phase = .pay7)) ∨
    (s.phase = .done ∧ (s.err ≠ .ok → s.fb = false ∧ s.txt = [])) := by
  unfold State.PhaseInv at h
  cases hs : s.phase <;> rw [hs] at h
  case idle => exact .inl h
  case udhIe | udhPad =>
    obtain ⟨⟨hclean, -⟩, -⟩ := h
    exact .inl hclean
  case pay8 | payU | pay7 => exact .inr (.inl ⟨h.1, by simp⟩)
  case done => exact .inr (.inr ⟨rfl, h⟩)
  all_goals exact .inl h.1

/-- A sound state with an error code holds no text (R262). -/
theorem State.Sound.txt_of_err {s : State} (h : s.Sound) (herr : s.err ≠ .ok) : s.txt = [] := by
  obtain ⟨-, -, -, -, hinv⟩ := h
  rcases hinv.cases with ⟨-, -, htxt⟩ | ⟨hok, -⟩ | ⟨-, hdone⟩
  · exact htxt
  · exact absurd hok herr
  · exact (hdone herr).2

/-- The payload modes raise nothing (R162, R260). -/
theorem seqStep_payload_err {s t : State} (hp : s.phase = .pay8 ∨ s.phase = .payU ∨ s.phase = .pay7)
    (h : seqStep s = .next t) : t.err = s.err := by
  rcases hp with hp | hp | hp <;> rw [seqStep, hp] at h
  · exact (execDOct8_frame h).err
  · exact (execDUcs2_frame h).err
  · exact (pay7Step_frame h).err

/-- A step that leaves an error code found nothing emitted (R263). -/
theorem txt_of_seqStep_err {s t : State} (h : s.Sound) (hb : s.busy = true) (ht : seqStep s = .next t)
    (herr : t.err ≠ .ok) : s.txt = [] := by
  obtain ⟨-, -, -, -, hinv⟩ := h
  rcases hinv.cases with ⟨-, -, htxt⟩ | ⟨hok, hp⟩ | ⟨hp, -⟩
  · exact htxt
  · exact absurd ((seqStep_payload_err hp ht).trans hok) herr
  · simp [State.busy, hp] at hb

/-- Settles O54: the payload modes raise nothing, before them nothing is emitted, and an abort clears the text. -/
theorem abortsArePrecise : Obligations.AbortsArePrecise := by
  intro s t h hb hr ht herr
  obtain ⟨t', ht', hto, -⟩ := step_busy_runsOn h hr hb
  obtain rfl := Host.Outcome.next.inj (ht.symm.trans ht')
  rw [step_busy hr hb] at ht
  exact ⟨txt_of_seqStep_err (s := ignoreStart s) (inv_iff_sound.1 h).2 hb ht herr, hto.sound.txt_of_err herr⟩

end Sys2Proof.Machine
end

section
/-!
PROOF. The encoder and the decoder of selecting words agree (`30_encoding.md` R90 to R99).
-/

namespace Sys2Proof.Machine

/-! What the decoder answers at a place, by the shape of the place's format. -/

/-- A position holds no word, and selects its operation. -/
theorem byPosition_eq_ok {i j : Instr} {w : List Byte} (h : byPosition i w = .ok j) : j = i := by
  unfold byPosition at h
  split at h <;> cases h
  rfl

/-- A position that holds one octet or none selects its operation. -/
theorem byPositionOctet_eq_ok {i j : Instr} {w : List Byte} (h : byPositionOctet i w = .ok j) : j = i := by
  unfold byPositionOctet at h
  split at h <;> cases h <;> rfl

/-- Format IE answers a row that admits the identifier it read (R96). -/
theorem decodeElement_wellFormed (id n : Byte) : (decodeElement id n).wellFormed = true := by
  unfold decodeElement
  split
  · rfl
  · exact bne_iff_ne.2 ‹_›

/-- The three modes are operations without operands (R94). -/
theorem decodeMode_wellFormed (d : Byte) : (decodeMode d).wellFormed = true := by
  unfold decodeMode
  cases payloadMode d <;> rfl

/-- Format SEPT answers a row that admits the value: G.CHR none of the two special ones (R98). -/
theorem decodeSept_wellFormed (esc : Bool) (v : Byte) : (decodeSept esc v).wellFormed = true := by
  unfold decodeSept
  split
  · rfl
  · split
    · rfl
    · split
      · rfl
      · have hend : v ≠ Config.septEnd := ‹¬ v = 0x00›
        have hesc : v ≠ Config.septEsc := ‹¬ v = 0x1B›
        simp [Instr.wellFormed, hend, hesc]

/-- Whatever a word decodes to is well formed (R91, R94, R96, R98). -/
theorem decode_wellFormed {p : Place} {w : List Byte} {i : Instr} (h : decode p w = .ok i) : i.wellFormed = true := by
  cases p <;> simp only [decode] at h
  case smsc | flags | oa | pid | dcs | scts | udl | udhLen =>
    rw [byPositionOctet_eq_ok h]
    rfl
  case hexChar =>
    split at h <;> cases h
    exact (decodeHexch_row _).1
  case udhElem =>
    split at h <;> cases h
    · rfl
    · rfl
    · exact decodeElement_wellFormed _ _
  case mode =>
    split at h <;> cases h
    exact decodeMode_wellFormed _
  case septet =>
    match w, h with
    | [v, e], h =>
      simp only at h
      split at h
      · cases h
        exact decodeSept_wellFormed false v
      · split at h <;> cases h
        exact decodeSept_wellFormed true v
  all_goals
    rw [byPosition_eq_ok h]
    rfl

/-! The rows whose operand the decoder classifies. -/

section

variable {c : Byte}

theorem decodeHexch_dec (h : isDecDigit c = true) : decodeHexch c = .hexDec c := if_pos (isDecDigit_iff.1 h)

theorem decodeHexch_upper (h : isUpperDigit c = true) : decodeHexch c = .hexUpper c := by
  have hc := isUpperDigit_iff.1 h
  rw [decodeHexch, if_neg (by omega), if_pos hc]

theorem decodeHexch_lower (h : isLowerDigit c = true) : decodeHexch c = .hexLower c := by
  have hc := isLowerDigit_iff.1 h
  rw [decodeHexch, if_neg (by omega), if_neg (by omega), if_pos hc]

theorem decodeHexch_bad (h : (Instr.hexBad c).wellFormed = true) : decodeHexch c = .hexBad c := by
  obtain ⟨hd, hu, hl⟩ := hexBad_wellFormed_iff.1 h
  rw [decodeHexch, if_neg (mt isDecDigit_iff.2 hd), if_neg (mt isUpperDigit_iff.2 hu), if_neg (mt isLowerDigit_iff.2 hl)]

end

theorem decodeElement_other {id n : Byte} (h : (Instr.hIeOther id n).wellFormed = true) :
    decodeElement id n = .hIeOther id n := if_neg (bne_iff_ne.1 h)

theorem decodeSept_chr {v : Byte} (h : (Instr.gChr v).wellFormed = true) : decodeSept false v = .gChr v := by
  obtain ⟨hend, hesc⟩ : ¬ v = 0x00 ∧ ¬ v = 0x1B := by
    simpa [Instr.wellFormed, Config.septEnd, Config.septEsc] using h
  exact (if_neg hend).trans (if_neg hesc)

/-- The word of a well-formed operation decodes to it, at its place (R90 to R99). -/
theorem decode_encode {i : Instr} (h : i.wellFormed = true) : decode (encode i).1 (encode i).2 = .ok i := by
  cases i
  case hexDec c => exact congrArg Except.ok (decodeHexch_dec h)
  case hexUpper c => exact congrArg Except.ok (decodeHexch_upper h)
  case hexLower c => exact congrArg Except.ok (decodeHexch_lower h)
  case hexBad c => exact congrArg Except.ok (decodeHexch_bad h)
  case hIeOther id n => exact congrArg Except.ok (decodeElement_other h)
  case gChr v => exact congrArg Except.ok (decodeSept_chr h)
  all_goals rfl

/-- Settles O59: by the operation in one direction, by the place in the other. -/
theorem decodeAndEncodeAgree : Obligations.DecodeAndEncodeAgree :=
  ⟨fun _ => decode_encode, fun _ _ _ => decode_wellFormed⟩

/-- Settles O60: each word decodes to its row by evaluation. -/
theorem tableWordsDecode : Obligations.TableWordsDecode := by
  unfold Obligations.TableWordsDecode
  decide

end Sys2Proof.Machine
end

section
/-!
PROOF. Unit D, one step at a time: D.OCT8 (R235), D.UCS2 by the unit at the cursor (R237), and the whole 7-bit payload as
one operation (R230).
-/

namespace Sys2Proof.Machine

theorem exec_dOct8 (s : State) : exec .dOct8 s = execDOct8 s := rfl

theorem exec_dUcs2 (s : State) : exec .dUcs2 s = execDUcs2 s := rfl

theorem exec_dGsm7 (s : State) : exec .dGsm7 s = execDGsm7 s := rfl

/-- Settles O23: the configured `WEST8` defines the octet, and the step emits what it defines. -/
theorem eightBitStepConvertsOneOctet : Obligations.EightBitStepConvertsOneOctet := fun _ b hlt hb =>
  ⟨_, west8_eq b, (exec_dOct8 _).trans (execDOct8_read hlt hb)⟩

/-! The classes of a code unit (R99, R237). -/

theorem isPlainUnit_iff {u : Nat} : isPlainUnit u = true ↔ u < 0xD800 ∨ 0xDFFF < u := by
  simp [isPlainUnit]

theorem isHighSurrogate_iff {u : Nat} : isHighSurrogate u = true ↔ 0xD800 ≤ u ∧ u ≤ 0xDBFF := by
  simp [isHighSurrogate]

theorem isLowSurrogate_iff {u : Nat} : isLowSurrogate u = true ↔ 0xDC00 ≤ u ∧ u ≤ 0xDFFF := by
  simp [isLowSurrogate]

theorem isPlainUnit_eq_false {u : Nat} (h : 0xD800 ≤ u ∧ u ≤ 0xDFFF) : isPlainUnit u = false :=
  Bool.eq_false_iff.2 fun hplain => by have := isPlainUnit_iff.1 hplain; omega

/-- The high ten bits and the low ten bits of a pair (R237). -/
theorem pairCodePoint_eq (u u2 : Nat) :
    pairCodePoint u u2 = BitVec.ofNat 21 (0x10000 + (u - 0xD800) * 1024 + (u2 - 0xDC00)) := by
  rw [pairCodePoint, Nat.shiftLeft_eq]

section

variable {u : Nat} {s : State}

theorem ucs2Unit_low (h : 0xDC00 ≤ u ∧ u ≤ 0xDFFF) : ucs2Unit u s = .next (payloadStep 0xFFFD true 2 s) :=
  ucs2Unit_alone (isPlainUnit_eq_false (by omega))
    (.inl (Bool.eq_false_iff.2 fun hhigh => by have := isHighSurrogate_iff.1 hhigh; omega))

theorem ucs2Unit_last (h : 0xD800 ≤ u ∧ u ≤ 0xDBFF) (hlast : s.payLen ≤ s.bitpos + 3) :
    ucs2Unit u s = .next (payloadStep 0xFFFD true 2 s) :=
  ucs2Unit_alone (isPlainUnit_eq_false (by omega)) (.inr hlast)

variable {b2 b3 : Byte} (h : 0xD800 ≤ u ∧ u ≤ 0xDBFF) (hlt : s.bitpos + 3 < s.payLen)
  (h2 : s.pay? (s.bitpos + 2) = some b2) (h3 : s.pay? (s.bitpos + 3) = some b3)
include h hlt h2 h3

theorem ucs2Unit_pair (hlow : 0xDC00 ≤ unitOf b2 b3 ∧ unitOf b2 b3 ≤ 0xDFFF) : ucs2Unit u s = .next
    (payloadStep (BitVec.ofNat 21 (0x10000 + (u - 0xD800) * 1024 + (unitOf b2 b3 - 0xDC00))) false 4 s) := by
  rw [ucs2Unit_high (isPlainUnit_eq_false (by omega)) (isHighSurrogate_iff.2 h) hlt h2 h3,
    if_pos (isLowSurrogate_iff.2 hlow), pairCodePoint_eq]

theorem ucs2Unit_unpaired (hother : unitOf b2 b3 < 0xDC00 ∨ 0xDFFF < unitOf b2 b3) :
    ucs2Unit u s = .next (payloadStep 0xFFFD true 2 s) := by
  rw [ucs2Unit_high (isPlainUnit_eq_false (by omega)) (isHighSurrogate_iff.2 h) hlt h2 h3,
    if_neg (mt isLowSurrogate_iff.1 (by omega))]

end

/-- Settles O24: a left-over octet, and then the unit at the cursor by its class. -/
theorem ucs2StepConvertsOneUnit : Obligations.Ucs2StepConvertsOneUnit := by
  intro s
  rw [exec_dUcs2]
  refine ⟨execDUcs2_octet, fun b0 b1 hlt h0 h1 => ?_⟩
  rw [execDUcs2_read hlt h0 h1]
  exact ⟨fun hplain => ucs2Unit_plain (isPlainUnit_iff.2 hplain), ucs2Unit_low, fun hhigh =>
    ⟨ucs2Unit_last hhigh, fun b2 b3 hmore h2 h3 =>
      ⟨ucs2Unit_pair hhigh hmore h2 h3, ucs2Unit_unpaired hhigh hmore h2 h3⟩⟩⟩

/-! D.GSM7. -/

theorem pay7Loop_done {s : State} (h : s.phase = .done) (n : Nat) : pay7Loop n s = .next s := by
  cases n <;> exact if_pos h

theorem pay7Loop_succ {s : State} (h : s.phase = .pay7) (n : Nat) :
    pay7Loop (n + 1) s = andThen (pay7Step s) (pay7Loop n) := if_neg (by simp [h])

/-- `t` is `s` after a 7-bit payload with the text and the flag `g`: at the end of the decode, and elsewhere as `s` but for
the cursors of `U`, the escape state and the port (R230). -/
def SeptetsDecoded (s : State) (g : List CodePoint × Bool) (t : State) : Prop :=
  t = { s with txt := g.1, fb := g.2, phase := .done, done := true, port := none,
               bitpos := t.bitpos, cnt := t.cnt, esc := t.esc }

/-- The loop of PAY_7 decodes the septets that are left, from what `G` holds (R165, R230, R240). -/
theorem pay7Loop_decodes {B : List Byte} {g : List CodePoint × Bool} : ∀ (S : List Septet) {s : State} {n : Nat},
    S.length < n → s.phase = .pay7 → AtSeptet s B → (unpack B s.pad (some s.cap)).drop s.cnt = S →
    g7Go Config.tables s.nst (S.map portValue) s.esc s.txt s.fb = g →
    ∃ t, pay7Loop n s = .next t ∧ SeptetsDecoded s g t
  | [], s, n + 1, _, hs, h, hS, hg => by
    obtain rfl : (s.txt, s.fb) = g := by rwa [List.map_nil, g7Go] at hg
    rw [pay7Loop_succ hs, h.pay7Step_exhausted (List.drop_eq_nil_iff.1 hS), andThen_next, pay7Loop_done rfl]
    refine ⟨_, rfl, ?_⟩
    simp [SeptetsDecoded, finish, h.port]
  | v :: S, s, n + 1, hn, hs, h, hS, hg => by
    have hrest : (unpack B s.pad (some s.cap)).drop (s.cnt + 1) = S := by
      rw [← List.drop_drop, hS]
      rfl
    rw [pay7Loop_succ hs, h.pay7Step_septet hS]
    rcases septetOp_g7Go (portValue v) { s with
        bitpos := s.bitpos + 7, cnt := s.cnt + 1, port := some (portValue v) } with
      ⟨hend, hgo⟩ | ⟨out, fb, esc, hnext, hgo⟩
    · obtain rfl : (s.txt, s.fb) = g := (hgo _).symm.trans hg
      rw [hend, andThen_next, pay7Loop_done rfl]
      exact ⟨_, rfl, rfl⟩
    · have hat : AtSeptet { s with
          bitpos := s.bitpos + 7, cnt := s.cnt + 1, txt := out, fb := fb, esc := esc, port := none } B :=
        ⟨h.payload, rfl, h.capValid, by simp only [h.cursor]; omega⟩
      rw [hnext, andThen_next]
      exact pay7Loop_decodes S (Nat.lt_of_succ_lt_succ hn) hs hat hrest ((hgo _).symm.trans hg)

/-- A payload octet is read inside the payload only (R64, R227). -/
theorem pay_eq_none {s : State} {i : Nat} (h : s.payLen ≤ i) : s.pay? i = none := by
  rw [pay_eq, State.ud?]
  refine if_neg ?_
  rw [State.payLen] at h
  omega

/-- Settles O25: the loop is at septet 0 of `Unpack`, and its bound is above the number of septets. -/
theorem septetPayloadIsDecodedWhole : Obligations.SeptetPayloadIsDecodedWhole := by
  intro s B hport hcv hbitpos hcnt hesc hlen hread r
  have hB : State.PayloadIs s B := by
    refine ⟨hlen.symm, fun i => ?_⟩
    by_cases hi : i < s.payLen
    · exact hread i hi
    · rw [pay_eq_none (by omega), List.getElem?_eq_none (by omega)]
  have hat : AtSeptet (goto .pay7 s) B := ⟨hB, hport, hcv, by simp [hbitpos, hcnt]⟩
  have hbound : (unpack B s.pad (some s.cap)).length < 8 * s.payLen + 3 := by
    rw [unpack_length, unpackCount, hlen]
    omega
  have hdrop : (unpack B s.pad (some s.cap)).drop s.cnt = unpack B s.pad (some s.cap) := by rw [hcnt, List.drop_zero]
  have hgo : g7Go Config.tables s.nst ((unpack B s.pad (some s.cap)).map portValue) s.esc s.txt s.fb =
      (s.txt ++ r.1, s.fb || r.2) := by
    rw [hesc, g7Go_out]
    rfl
  obtain ⟨t, ht, hdec⟩ := pay7Loop_decodes _ hbound rfl hat hdrop hgo
  refine ⟨t, (exec_dGsm7 s).trans ht, ?_⟩
  rw [SeptetsDecoded, ← hport] at hdec
  exact hdec

end Sys2Proof.Machine
end

section
/-!
PROOF. Unit U as an operation and as a function (`40_septet_unpacker.md`): U.NEXT (R133, R134), the septet by shifts (R138),
what `Unpack` depends on (R137), and the reference packer (R143).
-/

namespace Sys2Proof.Machine

/-! U.NEXT. -/

theorem exec_uNext (s : State) : exec .uNext s = execUNext s := rfl

theorem execUNext_exhausted {s : State} (h : ¬ unpackEnabled s = true) : execUNext s = .next s := if_neg h

/-- Stream bit `q + j` lies in one of the two octets a septet is read from (R73). -/
theorem pairBit_of_pay {s : State} {q j : Nat} {b0 b1 b : Byte} (hj : j < 7) (h0 : s.pay? (q / 8) = some b0)
    (h1 : s.pay? ((q + 6) / 8) = some b1) (hb : s.pay? ((q + j) / 8) = some b) :
    pairBit b0 b1 (q % 8) j = b.getLsbD ((q + j) % 8) := by
  rw [pairBit]
  split
  · rw [show (q + j) / 8 = q / 8 by omega, h0] at hb
    obtain rfl := Option.some.inj hb
    rw [show (q + j) % 8 = q % 8 + j by omega]
  · rw [show (q + j) / 8 = (q + 6) / 8 by omega, h1] at hb
    obtain rfl := Option.some.inj hb
    rw [show (q + j) % 8 = q % 8 + j - 8 by omega]

theorem State.UserDataReadable.pay {s : State} (h : s.UserDataReadable) {i : Nat} (hi : i < s.payLen) :
    ∃ b, s.pay? i = some b := by
  rw [State.payLen] at hi
  exact Option.isSome_iff_exists.1 (h (s.span + i) (by omega))

/-- Settles O27: the stop rule is the test U.NEXT makes, and the two octets it reads hold the seven bits. -/
theorem unpackerTakesSevenBits : Obligations.UnpackerTakesSevenBits := by
  intro s hread _
  rw [exec_uNext]
  refine ⟨fun hroom hwant => ?_, fun hstop => execUNext_exhausted fun hon => ?_⟩
  · obtain ⟨b0, h0⟩ := hread.pay (i := s.bitpos / 8) (by omega)
    obtain ⟨b1, h1⟩ := hread.pay (i := (s.bitpos + 6) / 8) (by omega)
    refine ⟨_, execUNext_enabled (unpackEnabled_iff.2 ⟨hroom, hwant⟩) h0 h1, fun j hj b hb => ?_⟩
    rw [septetOf_bit _ hj, pairBit_of_pay hj h0 h1 hb]
  · obtain ⟨hroom, hwant⟩ := unpackEnabled_iff.1 hon
    rcases hstop with hshort | ⟨hcv, hcap⟩
    · omega
    · rcases hwant with hno | hlt
      · exact Bool.false_ne_true (hno.symm.trans hcv)
      · omega

/-! A septet by shifts. -/

/-- A septet is the seven low bits of a number that holds its bits (R67). -/
theorem septetOf_toNat_eq {f : Nat → Bool} {x : Nat} (h : ∀ j < 7, f j = x.testBit j) :
    (septetOf f).toNat = x &&& 0x7F := by
  have hx : x &&& 0x7F = x % 2 ^ 7 := Nat.and_two_pow_sub_one_eq_mod x 7
  rw [hx, ← BitVec.toNat_ofNat, septetOf_eq (v := BitVec.ofNat 7 x)]
  intro j hj
  rw [h j hj, BitVec.getLsbD_ofNat, decide_eq_true hj, Bool.true_and]

/-- Bit `j` of two octets, the second above the first, read from offset `t` on. -/
theorem pairBit_eq_testBit {b0 b1 : Byte} {t j : Nat} (ht : t < 8) :
    pairBit b0 b1 t j = ((b0.toNat >>> t) ||| (b1.toNat <<< (8 - t))).testBit j := by
  rw [Nat.testBit_or, Nat.testBit_shiftRight, Nat.testBit_shiftLeft, pairBit]
  split
  · rw [decide_eq_false (by omega), Bool.false_and, Bool.or_false]
    rfl
  · have hb0 : b0.toNat.testBit (t + j) = false := BitVec.getLsbD_of_ge b0 (t + j) (by omega)
    rw [hb0, Bool.false_or, decide_eq_true (by omega), Bool.true_and, show j - (8 - t) = t + j - 8 by omega]
    rfl

/-- Settles O28: the two octets shifted together hold the seven bits, and for `t` at most 1 the first alone does. -/
theorem septetByShifts : Obligations.SeptetByShifts := by
  refine fun b0 b1 t ht => ⟨fun h1 => septetOf_toNat_eq fun j hj => ?_, fun _ =>
    septetOf_toNat_eq fun j _ => pairBit_eq_testBit ht⟩
  rw [pairBit, if_pos (by omega), Nat.testBit_shiftRight]
  rfl

/-! `Unpack` and `Pack`. -/

/-- Settles O29: equal lengths give equal counts, and each septet reads bits in which the two agree. -/
theorem unpackIgnoresPaddingAndTail : Obligations.UnpackIgnoresPaddingAndTail := by
  intro B B' p cap hlen hbits
  rw [unpack, unpack, ← hlen]
  refine List.map_congr_left fun k hk => septetOf_congr fun j hj => hbits _ ?_ ?_
  · omega
  · have := List.mem_range.1 hk
    omega

/-- The packed octets hold at least the septets that were packed. -/
theorem unpackCount_pack (S : List Septet) (p : BitVec 3) :
    unpackCount (pack S p).length p.toNat (some S.length) = S.length := by
  simp only [unpackCount, pack_length]
  omega

/-- Stream bit `j` behind septet `k` of a packed sequence is that septet's (R143). -/
theorem bitAt_pack_septet (S : List Septet) (p : BitVec 3) {k j : Nat} (hj : j < 7) (hk : k < S.length) :
    bitAt (pack S p) (p.toNat + 7 * k + j) = (S.getD k 0).getLsbD j := by
  rw [bitAt_pack S p (by omega), packBits_bit S p hj hk]

/-- Settles O30: as many septets as were packed, each read from where the packer put it. -/
theorem unpackUndoesPack : Obligations.UnpackUndoesPack := by
  intro S p
  refine List.ext_getElem (by rw [unpack_length, unpackCount_pack]) fun k hk hkS => ?_
  rw [unpack_getElem hk]
  refine septetOf_eq fun j hj => ?_
  rw [bitAt_pack_septet S p hj hkS, List.getD_eq_getElem _ _ hkS]

/-- Settles O31: a stream bit of a whole group is bit `j` of a septet `k`, which the unpacker read there. -/
theorem packUndoesUnpackUpToTheTail : Obligations.PackUndoesUnpackUpToTheTail := by
  intro B p i hp hi
  obtain ⟨k, j, hj, rfl⟩ : ∃ k j, j < 7 ∧ i = p.toNat + 7 * k + j :=
    ⟨(i - p.toNat) / 7, (i - p.toNat) % 7, Nat.mod_lt _ (by decide), by omega⟩
  have hk : k < (unpack B p none).length := by
    rw [unpack_length]
    omega
  rw [bitAt_pack_septet _ p hj hk, List.getD_eq_getElem _ _ hk, unpack_getElem hk, septetOf_bit _ hj]

end Sys2Proof.Machine
end

section
/-!
PROOF. Unit G on a sequence of values (R165): its operations compute the recursion of `G7Decode`; the bound on the text and
the use of the shift table (R166, R167).
-/

namespace Sys2Proof.Machine

theorem feed_cons (v : Byte) (r : List Byte) (s : State) :
    feed (v :: r) s = andThen (septetOp v s) fun t => if t.phase = .done then .next t else feed r t := by
  rw [feed, runWord_septet]

/-- Settles O37: one value is one round of the recursion, and the next one meets what `G` then holds. -/
theorem feedingValuesIsTheDecoderFunction : Obligations.FeedingValuesIsTheDecoderFunction := by
  intro S
  induction S with
  | nil => exact fun s _ => ⟨s, rfl, by rw [g7Go]⟩
  | cons v r ih =>
    intro s hs
    rw [feed_cons]
    rcases septetOp_g7Go v s with ⟨hend, hgo⟩ | ⟨out, fb, esc, hnext, hgo⟩
    · rw [hend, hgo, andThen_next, if_pos (finish_phase _)]
      exact ⟨_, rfl, rfl⟩
    · rw [hnext, hgo, andThen_next, if_neg (by simp [hs])]
      exact ih _ hs

/-- One round of the recursion: the text ends, or it goes on with at most one code point more, and with the flag as it was
where the value is an index (R158, R165, R166). -/
theorem g7Go_round (tb : Tables) (u : Bool) (v : Byte) (e : Bool) (out : List CodePoint) (fb : Bool) :
    (∀ r, g7Go tb u (v :: r) e out fb = (out, fb)) ∨
    ∃ out' fb' e', out'.length ≤ out.length + 1 ∧ (v.toNat ≤ 127 → fb' = fb) ∧
      ∀ r, g7Go tb u (v :: r) e out fb = g7Go tb u r e' out' fb' := by
  have hone : ∀ c : CodePoint, (out ++ [c]).length ≤ out.length + 1 := fun _ => List.length_append.le
  cases e with
  | false =>
    by_cases hend : v = 0x00
    · exact .inl fun r => by rw [g7Go, if_pos hend]
    · by_cases hesc : v = 0x1B
      · exact .inr ⟨out, fb, true, Nat.le_succ _, fun _ => rfl, fun r => by rw [g7Go, if_neg hend, if_pos hesc]⟩
      · by_cases hv : v.toNat ≤ 127
        · exact .inr ⟨_, fb, false, hone _, fun _ => rfl,
            fun r => by rw [g7Go, if_neg hend, if_neg hesc, if_pos hv]⟩
        · exact .inr ⟨_, true, false, hone _, fun h => absurd h hv,
            fun r => by rw [g7Go, if_neg hend, if_neg hesc, if_neg hv]⟩
  | true =>
    cases hn : (if u then tb.nst v else none) with
    | some c => exact .inr ⟨_, fb, false, hone c, fun _ => rfl, fun r => by rw [g7Go, hn]⟩
    | none =>
      by_cases hv : v.toNat ≤ 127
      · exact .inr ⟨_, fb, false, hone _, fun _ => rfl, fun r => by rw [g7Go, hn]; exact if_pos hv⟩
      · exact .inr ⟨_, true, false, hone _, fun h => absurd h hv, fun r => by rw [g7Go, hn]; exact if_neg hv⟩

/-- At most one code point a value (R166). -/
theorem g7Go_length_le (tb : Tables) (u : Bool) (S : List Byte) : ∀ (e : Bool) (out : List CodePoint) (fb : Bool),
    (g7Go tb u S e out fb).1.length ≤ out.length + S.length := by
  induction S with
  | nil => exact fun e out fb => by rw [g7Go]; exact Nat.le_add_right _ _
  | cons v r ih =>
    intro e out fb
    rw [List.length_cons]
    rcases g7Go_round tb u v e out fb with hend | ⟨out', fb', e', hout, -, hgo⟩
    · rw [hend]
      exact Nat.le_add_right _ _
    · have := ih e' out' fb'
      rw [hgo]
      omega

/-- Indices of the basic alphabet need no substitute (R158). -/
theorem g7Go_fb (tb : Tables) (u : Bool) (S : List Byte) (hS : ∀ v ∈ S, v.toNat ≤ 127) :
    ∀ (e : Bool) (out : List CodePoint) (fb : Bool), (g7Go tb u S e out fb).2 = fb := by
  induction S with
  | nil => exact fun e out fb => by rw [g7Go]
  | cons v r ih =>
    intro e out fb
    obtain ⟨hv, hr⟩ := List.forall_mem_cons.1 hS
    rcases g7Go_round tb u v e out fb with hend | ⟨out', fb', e', -, hfb, hgo⟩
    · rw [hend]
    · rw [hgo, ih hr, hfb hv]

/-- Without the national table the recursion does not read it (R167). -/
theorem g7Go_without_nst (tb : Tables) (nst' : Byte → Option CodePoint) (S : List Byte) :
    ∀ (e : Bool) (out : List CodePoint) (fb : Bool),
    g7Go { tb with nst := nst' } false S e out fb = g7Go tb false S e out fb := by
  induction S with
  | nil => exact fun e out fb => by rw [g7Go, g7Go]
  | cons v r ih =>
    intro e out fb
    cases e with
    | false => simp only [g7Go, ih]
    | true => simp only [g7Go, ih, Bool.false_eq_true, if_false]

/-- Settles O40: the bound from an empty text, and the table the recursion does not read. -/
theorem decoderTextBoundAndTableUse : Obligations.DecoderTextBoundAndTableUse := fun tb S =>
  ⟨fun u => (g7Go_length_le tb u S false [] false).trans (Nat.zero_add _).le,
    fun nst' => g7Go_without_nst tb nst' S false [] false⟩

end Sys2Proof.Machine
end

section
/-!
PROOF. Unit H as a function (`42_udh_scanner.md`): the padding (R104, R183), the rows of an element (R180), what the
elements fill (R184, R185), and that the scan reads the header alone (R190).
-/

namespace Sys2Proof.Machine

/-- What R104 subtracts from 7 is the part of a septet that the header's bits fill. -/
theorem padFor_eq (span : Nat) : padFor span = (7 - span % 7) % 7 := by
  unfold padFor
  simp only
  split <;> omega

/-- Settles O21: arithmetic from the closed form of the padding. -/
theorem paddingAlignsThePayload : Obligations.PaddingAlignsThePayload := by
  intro span
  rw [padFor_eq]
  omega

/-- Settles O18: each row walks its element, H.IE.NSS one with the identifier that sets `nst`. -/
theorem headerElementIsWalked : Obligations.HeaderElementIsWalked := by
  intro s id n hid
  rw [exec_hIeNss, exec_hIeOther]
  refine ⟨fun hbad => ⟨walk_bad hbad, walk_bad hbad⟩, fun hroom hfits => ?_⟩
  rw [walk_ok hroom hfits, walk_ok hroom hfits, beq_self_eq_true, Bool.or_true, beq_false_of_ne hid, Bool.or_false]
  exact ⟨rfl, rfl⟩

/-! The walk and the list of the elements. -/

/-- A walk that succeeds is at the end, or passes one element that fits and succeeds behind it (R189). -/
theorem udhWalk_eq_some {UD : List Byte} {span fuel o : Nat} {nst r : Bool}
    (h : udhWalk UD span (fuel + 1) o nst = some r) :
    (span ≤ o ∧ r = nst) ∨
    (o + 2 + (UD.getD (o + 1) 0).toNat ≤ span ∧
      udhWalk UD span fuel (o + 2 + (UD.getD (o + 1) 0).toNat) (nst || UD.getD o 0 == 0x24) = some r) := by
  by_cases hend : span ≤ o
  · rw [udhWalk_end hend] at h
    exact .inl ⟨hend, (Option.some.inj h).symm⟩
  · by_cases hroom : o + 1 < span
    · by_cases hfits : o + 2 + (UD.getD (o + 1) 0).toNat ≤ span
      · rw [udhWalk_fits hroom hfits] at h
        exact .inr ⟨hfits, h⟩
      · rw [udhWalk_long hroom (by omega)] at h
        cases h
    · rw [udhWalk_short (by omega) (by omega)] at h
      cases h

theorem elementsFrom_end {UD : List Byte} {span fuel o : Nat} (h : span ≤ o) : elementsFrom UD span (fuel + 1) o = [] :=
  if_neg (by omega)

theorem elementsFrom_cons {UD : List Byte} {span fuel o : Nat} (h : o < span) : elementsFrom UD span (fuel + 1) o =
    (UD.getD o 0, (UD.drop (o + 2)).take (UD.getD (o + 1) 0).toNat) ::
      elementsFrom UD span fuel (o + 2 + (UD.getD (o + 1) 0).toNat) := if_pos h

/-- The sizes of the elements from `o` on sum to what is left of the header, and `nst` is set by identifier 0x24 alone. -/
theorem elementsFrom_of_udhWalk {UD : List Byte} {span : Nat} (hspan : span ≤ UD.length) (fuel : Nat) :
    ∀ {o : Nat} {nst r : Bool}, o ≤ span → udhWalk UD span fuel o nst = some r →
    ((elementsFrom UD span fuel o).map fun e => 2 + e.2.length).sum = span - o ∧
    r = (nst || (elementsFrom UD span fuel o).any fun e => e.1 == 0x24) := by
  induction fuel with
  | zero => exact fun _ h => nomatch h
  | succ fuel ih =>
    intro o nst r hle h
    rcases udhWalk_eq_some h with ⟨hend, rfl⟩ | ⟨hfits, hrest⟩
    · rw [elementsFrom_end hend]
      exact ⟨by simp; omega, by simp⟩
    · obtain ⟨hsum, hany⟩ := ih hfits hrest
      have hsize : ((UD.drop (o + 2)).take (UD.getD (o + 1) 0).toNat).length = (UD.getD (o + 1) 0).toNat := by
        rw [List.length_take, List.length_drop]
        omega
      rw [elementsFrom_cons (by omega)]
      refine ⟨?_, by rw [hany, List.any_cons, Bool.or_assoc]⟩
      rw [List.map_cons, List.sum_cons, hsum, hsize]
      omega

theorem scanUdh_nil : scanUdh [] = none := rfl

/-- What a scan that succeeds has found (R189). -/
theorem scanUdh_eq_some {t : Byte} {l : List Byte} {h : HeaderScan} (hs : scanUdh (t :: l) = some h) :
    spanOf t ≤ (t :: l).length ∧ h.thl = t ∧ udhWalk (t :: l) (spanOf t) (spanOf t) 1 false = some h.nst := by
  by_cases hfits : spanOf t ≤ (t :: l).length
  · rw [scanUdh_walk hfits] at hs
    obtain ⟨nst, hnst, rfl⟩ := Option.map_eq_some_iff.1 hs
    exact ⟨hfits, rfl, hnst⟩
  · rw [scanUdh_long (by omega)] at hs
    cases hs

/-- Settles O42: the walk begins at octet 1, so the elements fill all but the length octet of the span. -/
theorem elementsFillTheHeader : Obligations.ElementsFillTheHeader := by
  intro UD h hs
  match UD with
  | [] =>
    rw [scanUdh_nil] at hs
    cases hs
  | t :: l =>
    obtain ⟨hfits, rfl, hwalk⟩ := scanUdh_eq_some hs
    exact elementsFrom_of_udhWalk hfits _ (spanOf_le _).1 hwalk

/-- The walk reads octets of the header only. -/
theorem udhWalk_congr {UD UD' : List Byte} {span : Nat} (h : ∀ i < span, UD.getD i 0 = UD'.getD i 0) (fuel : Nat) :
    ∀ (o : Nat) (nst : Bool), udhWalk UD span fuel o nst = udhWalk UD' span fuel o nst := by
  induction fuel with
  | zero => exact fun _ _ => rfl
  | succ fuel ih =>
    intro o nst
    by_cases hroom : o + 1 < span
    · simp only [udhWalk, h o (by omega), h (o + 1) hroom, ih]
    · by_cases hend : span ≤ o
      · rw [udhWalk_end hend, udhWalk_end hend]
      · rw [udhWalk_short (by omega) (by omega), udhWalk_short (by omega) (by omega)]

/-- Settles O43: both user data hold the whole header, so the scan is the walk over it. -/
theorem scanIgnoresThePayload : Obligations.ScanIgnoresThePayload := by
  intro t h r r' hlen
  have hspan : spanOf t = (t :: h).length := by rw [spanOf, List.length_cons, hlen]
  have hhead : ∀ i < spanOf t, (t :: h ++ r).getD i 0 = (t :: h ++ r').getD i 0 := fun i hi => by
    rw [List.getD_append _ _ _ _ (hspan ▸ hi), List.getD_append _ _ _ _ (hspan ▸ hi)]
  have hfits : ∀ l, spanOf t ≤ (t :: (h ++ l)).length := fun l => by
    rw [hspan, ← List.cons_append, List.length_append]
    exact Nat.le_add_right _ _
  rw [List.cons_append, List.cons_append] at hhead ⊢
  rw [scanUdh_walk (hfits r), scanUdh_walk (hfits r'), udhWalk_congr hhead]

end Sys2Proof.Machine
end

section
/-!
PROOF. A step is the decoded operation of its phase (R23, R98, R240), and the steps after a start event are DECODE (R239,
R306).
-/

namespace Sys2Proof.Machine

/-! The operation a step runs. -/

theorem runWord_ok {p : Place} {w : List Byte} {i : Instr} (h : decode p w = .ok i) (s : State) :
    runWord p w s = exec i s := by
  rw [runWord, h]

theorem step_eq_runPhase {s : State} (hr : s.resetIn = false) (hb : s.busy = true) :
    step s = runPhase (ignoreStart s) := by
  rw [step, hr, if_neg Bool.false_ne_true, if_pos hb]

theorem runPhase_of_ne_pay7 {s : State} (h : s.phase ≠ .pay7) : runPhase s = runWord (placeOf s.phase) (wordAt s) s := by
  unfold runPhase
  split
  · exact absurd ‹s.phase = .pay7› h
  · rfl

theorem runPort_some {s : State} {v : Byte} (h : s.port = some v) :
    runPort s = runWord .septet (septWord s.esc v) s := by
  rw [runPort, h]

theorem runPhase_pay7_port {s : State} {v : Byte} (hs : s.phase = .pay7) (h : s.port = some v) :
    runPhase s = runWord .septet (septWord s.esc v) s := by
  rw [runPhase, hs, ← runPort_some h, h]

theorem runPhase_pay7_fetch {s : State} (hs : s.phase = .pay7) (h : s.port = none) (hon : unpackEnabled s = true) :
    runPhase s = andThen (exec .uNext s) runPort := by
  rw [runPhase, hs, h]
  exact if_pos hon

/-- Settles O48: by whether the phase is PAY_7, and there by whether a value waits at `G`. -/
theorem stepRunsTheDecodedOperation : Obligations.StepRunsTheDecodedOperation := by
  intro s i hr hb
  rw [step_eq_runPhase hr hb]
  refine ⟨fun hs hi => ?_, fun hs v hv hi => ?_, fun hs hport hon t v ht hv hi => ?_⟩
  · rw [runPhase_of_ne_pay7 (s := ignoreStart s) hs]
    exact runWord_ok hi _
  · rw [runPhase_pay7_port (s := ignoreStart s) hs hv]
    exact runWord_ok hi _
  · rw [runPhase_pay7_fetch (s := ignoreStart s) hs hport hon, ht, andThen_next, runPort_some hv]
    exact runWord_ok hi _

/-! Steps of PAY_7. -/

theorem busy_of_pay7 {s : State} (hs : s.phase = .pay7) : s.busy = true := by
  simp [State.busy, hs]

theorem step_pay7 {s : State} (hs : s.phase = .pay7) (hr : s.resetIn = false) :
    step s = pay7Step (ignoreStart s) := by
  rw [step_busy hr (busy_of_pay7 hs), seqStep, ignoreStart_phase, hs]

theorem step_pay7_port {s : State} {v : Byte} (hs : s.phase = .pay7) (hr : s.resetIn = false) (hv : s.port = some v) :
    step s = septetOp v (ignoreStart s) := by
  rw [step_pay7 hs hr, pay7Step, ignoreStart_port, hv]

/-- Settles O36: a step takes the value at `G`, and `septetOp` selects by the pair. -/
theorem escapeStateAndValueSelect : Obligations.EscapeStateAndValueSelect := by
  intro s v hs hr hv
  rw [step_pay7_port hs hr hv, septetOp, ignoreStart_esc]
  refine ⟨fun he hend => ?_, fun he hesc => ?_, fun he hend hesc => ?_, fun he => ?_⟩
  · subst hend
    rw [he]
    rfl
  · subst hesc
    rw [he]
    rfl
  · rw [he, if_neg Bool.false_ne_true, if_neg (show ¬ v = Config.septEnd from hend),
      if_neg (show ¬ v = Config.septEsc from hesc)]
    rfl
  · rw [if_pos he]
    rfl

/-- The stop rule (R134). -/
theorem not_unpackEnabled {s : State} (h : 8 * s.payLen < s.bitpos + 7 ∨ (s.capValid = true ∧ s.cap ≤ s.cnt)) :
    ¬ unpackEnabled s = true := by
  rw [unpackEnabled_iff]
  rintro ⟨hroom, hwant⟩
  rcases h with hshort | ⟨hcv, hcap⟩
  · omega
  · rcases hwant with hno | hlt
    · exact Bool.false_ne_true (hno.symm.trans hcv)
    · omega

theorem pay7Step_exhausted {s : State} (hport : s.port = none) (h : ¬ unpackEnabled s = true) :
    pay7Step s = .next (finish s) := by
  rw [pay7Step, hport]
  exact if_neg h

/-- Settles O38: nothing waits at `G` and `U` delivers nothing, so the step is the end of the decode. -/
theorem exhaustionEndsTheText : Obligations.ExhaustionEndsTheText := by
  intro s hs hr hport hstop
  rw [step_pay7 hs hr]
  exact pay7Step_exhausted (s := ignoreStart s) hport (not_unpackEnabled hstop)

/-! Runs. -/

/-- A sound state in which no event waits. -/
structure State.Quiet (s : State) : Prop where
  sound : s.Sound
  startIn : s.startIn = false
  resetIn : s.resetIn = false

theorem ignoreStart_eq_self {s : State} (h : s.startIn = false) : ignoreStart s = s := by
  rw [ignoreStart, ← h]

/-- At rest the sequencer stands still (R300). -/
theorem seqStep_rest {s : State} (hb : s.busy = false) : seqStep s = .next s := by
  rcases busy_eq_false.1 hb with hs | hs <;> rw [seqStep, hs]

/-- Without an event a step is the sequencer's, running or at rest. -/
theorem State.Quiet.step_eq {s : State} (h : s.Quiet) : step s = seqStep s := by
  cases hb : s.busy with
  | true => rw [step_busy h.resetIn hb, ignoreStart_eq_self h.startIn]
  | false => rw [step_quiet h.resetIn hb h.startIn, seqStep_rest hb]

theorem State.Quiet.next {s u : State} (h : s.Quiet) (hu : seqStep s = .next u) : u.Quiet := by
  cases hb : s.busy with
  | true =>
    obtain ⟨u', hu', hto⟩ := seqStep_runsOn h.sound hb
    obtain rfl := Host.Outcome.next.inj (hu.symm.trans hu')
    exact ⟨hto.sound, hto.startIn.trans h.startIn, hto.resetIn.trans h.resetIn⟩
  | false =>
    rw [seqStep_rest hb] at hu
    cases hu
    exact h

theorem startSequence_quiet (s : State) : (startSequence s).Quiet := ⟨startSequence_sound s, rfl, rfl⟩

theorem run_succ {s u : State} (h : step s = .next u) (n : Nat) : core.run (n + 1) s = core.run n u := by
  have hstep : core.step s = .next u := h
  simp only [Host.Core.run, hstep]

theorem run_rest {s : State} (h : s.Quiet) (hb : s.busy = false) (n : Nat) : core.run n s = .next s := by
  induction n with
  | zero => rfl
  | succ n ih => rw [run_succ (step_quiet h.resetIn hb h.startIn), ih]

/-- As many steps as DECODE has phases reach the state DECODE reaches; the steps that are left stand still in DONE. -/
theorem run_of_runToDone (n : Nat) : ∀ {s t : State}, s.Quiet → runToDone n s = .next t → core.run n s = .next t := by
  induction n with
  | zero =>
    intro s t h ht
    by_cases hp : s.phase = .done
    · rw [runToDone_of_done hp] at ht
      exact ht
    · rw [runToDone, if_neg hp] at ht
      cases ht
  | succ n ih =>
    intro s t h ht
    by_cases hp : s.phase = .done
    · rw [runToDone_of_done hp] at ht
      rw [run_rest h (busy_eq_false.2 (.inr hp))]
      exact ht
    · rw [runToDone_succ hp] at ht
      obtain ⟨u, hu, ht⟩ := andThen_eq_next ht
      rw [run_succ (h.step_eq.trans hu), ih (h.next hu) ht]

/-- Settles O45: the first step is the start sequence, and the sequencer is in DONE within the bound of the others. -/
theorem stepsFromStartReachTheDecode : Obligations.StepsFromStartReachTheDecode := by
  intro s hb hr hs
  obtain ⟨t, ht, -⟩ := decodesIn_startSequence s
  refine ⟨t, ?_, (exec_wholeDecode hb).trans ht⟩
  exact (run_succ (step_start hr hb hs) (4 * s.N + 200)).trans (run_of_runToDone _ (startSequence_quiet s) ht)

end Sys2Proof.Machine
end

section
/-!
PROOF. The whole decode as a function of the string: nothing else goes in (R286), and where a substitute is noted (R258).
-/

namespace Sys2Proof.Machine

theorem chars_congr {s s' : State} (hN : s.N = s'.N) (h : ∀ i < s.N, s.chr i = s'.chr i) : s.chars = s'.chars := by
  rw [State.chars, State.chars, ← hN]
  exact List.map_congr_left fun i hi => h i (List.mem_range.1 hi)

/-- Settles O46: both decodes are the function of the one string. -/
theorem noStateCrossesDecodes : Obligations.NoStateCrossesDecodes := by
  intro s s' hb hb' hN hchr
  obtain ⟨t, ht, -, -, hresult, -⟩ := decodeIsTheFunctionOfTheString s hb
  obtain ⟨t', ht', -, -, hresult', -⟩ := decodeIsTheFunctionOfTheString s' hb'
  exact ⟨t, t', ht, ht', by rw [hresult, hresult', chars_congr hN hchr]⟩

/-- The configured `WEST8` defines every octet, so none is substituted (log 7). -/
theorem west8Text_fb (B : List Byte) : (west8Text Config.tables B).2 = false := by
  induction B with
  | nil => rfl
  | cons b r ih => rw [west8Text_cons, ih]

/-- Septets are indices of the basic alphabet, so none is substituted (R158). -/
theorem g7Decode_septets_fb (tb : Tables) (S : List Septet) (u : Bool) : (g7Decode tb (S.map portValue) u).2 = false :=
  g7Go_fb tb u _ (List.forall_mem_map.2 fun v _ => portValue_le v) false [] false

/-- A payload notes a substitute in UCS-2 mode only. -/
theorem decodePayload_fb {d u : Byte} {UD : List Byte} {span : Nat} {nst : Bool} {pad : BitVec 3}
    (h : (decodePayload Config.tables d UD u span nst pad).2 = true) : payloadMode d = .ucs2 := by
  rw [decodePayload] at h
  cases hmode : payloadMode d with
  | ucs2 => rfl
  | oct8 =>
    simp only [hmode, west8Text_fb] at h
    cases h
  | gsm7 =>
    simp only [hmode, g7Decode_septets_fb] at h
    cases h

theorem fieldsResult_fb {f : PduFields} (h : (fieldsResult Config.tables f).fb = true) : payloadMode f.dcs = .ucs2 := by
  unfold fieldsResult at h
  split at h
  · cases hscan : scanUdh f.ud with
    | none =>
      rw [hscan] at h
      cases h
    | some header =>
      rw [hscan] at h
      exact decodePayload_fb h
  · exact decodePayload_fb h

/-- Settles O47: a decode without a parse notes nothing, one with a parse has the flag of its payload. -/
theorem fallbackOnlyInUcs2 : Obligations.FallbackOnlyInUcs2 := by
  intro C h
  rw [decodePdu_eq] at h
  cases hparse : parsePdu C with
  | none =>
    rw [hparse] at h
    cases h
  | some f =>
    rw [hparse] at h
    exact ⟨f, rfl, fieldsResult_fb h⟩

end Sys2Proof.Machine
end

section
/-!
PROOF. What operations leave unchanged: the input (R46), the text (R66, R75), and each record register but for its one
writer (R21, R27 to R35).
-/

namespace Sys2Proof.Machine

theorem SameInput.refl (s : State) : SameInput s s := ⟨rfl, fun _ => rfl⟩

/-- Settles O55: DECODE by what it is as a whole, every other operation by its unit's frame. -/
theorem noOperationWritesTheInput : Obligations.NoOperationWritesTheInput := by
  intro i s t h
  by_cases hi : i = .wholeDecode
  · subst hi
    cases hb : s.busy with
    | true =>
      rw [exec_wholeDecode_busy hb] at h
      cases h
      exact .refl s
    | false =>
      obtain ⟨t', ht', -, -, -, hinput⟩ := decodeIsTheFunctionOfTheString s hb
      obtain rfl := Host.Outcome.next.inj (h.symm.trans ht')
      exact hinput
  · obtain ⟨hpdu, hN⟩ := exec_input hi h
    exact ⟨hN, fun a => by rw [hpdu]⟩

/-! The text. -/

/-- The operations that emit are those of `D` and the two of `G` that take a character (R75). -/
theorem unit_of_emitsText {i : Instr} (h : emitsText i = true) (hi : i ≠ .wholeDecode) :
    (unitOfInstr i = some .g ∨ unitOfInstr i = some .d) ∧ i ≠ .dSel := by
  cases i
  case wholeDecode => exact absurd rfl hi
  case dOct8 | dUcs2 | dGsm7 => exact ⟨.inr rfl, nofun⟩
  case gChr | gXchr => exact ⟨.inl rfl, nofun⟩
  all_goals cases h

section

variable {i : Instr} {s t : State} (h : exec i s = .next t)
include h

/-- The operations of `U` and `G` that emit nothing leave the text as it is. -/
theorem txt_of_not_emitsText (hi : unitOfInstr i = some .g ∨ unitOfInstr i = some .d ∨ unitOfInstr i = some .u)
    (hsel : i ≠ .dSel) (hemit : emitsText i = false) : t.txt = s.txt := by
  cases i
  case uInit | gInit | gEnd | gEsc =>
    cases h
    rfl
  case uNext =>
    rcases execUNext_next h with ⟨-, rfl⟩ | ⟨-, v, rfl⟩ <;> rfl
  case dSel => exact absurd rfl hsel
  case dOct8 | dUcs2 | dGsm7 | gChr | gXchr => cases hemit
  all_goals simp [unitOfInstr] at hi

/-- An operation that emits nothing leaves the text, or aborts. -/
theorem txt_or_abort (hemit : emitsText i = false) : t.txt = s.txt ∨ ∃ e, e ≠ .ok ∧ t = abort e s := by
  rcases unitOfInstr_cases i with hP | hH | rfl | rfl | ⟨hU, hsel, -⟩
  · rcases parser_frame i s t h hP with rfl | ⟨-, -, -, -, htxt, -⟩
    · exact .inr ⟨.malformedInput, nofun, rfl⟩
    · exact .inl htxt
  · rcases header_frame i s t h hH with rfl | ⟨-, -, -, -, htxt, -⟩
    · exact .inr ⟨.structuralHeaderError, nofun, rfl⟩
    · exact .inl htxt
  · rw [execDSel_frame h]
    exact .inl rfl
  · cases hemit
  · exact .inl (txt_of_not_emitsText h hU hsel hemit)

end

/-- Settles O57: what emits adds at the end, what does not leaves the text or aborts. -/
theorem onlyPayloadOperationsEmit : Obligations.OnlyPayloadOperationsEmit := by
  intro i s t h hi
  refine ⟨fun hemit => ?_, fun hemit => ?_⟩
  · obtain ⟨hunit, hsel⟩ := unit_of_emitsText hemit hi
    exact (payload_frame i s t h (hunit.imp_right .inl) hsel).txt
  · rcases txt_or_abort h hemit with htxt | ⟨e, he, rfl⟩
    · exact .inl htxt
    · exact .inr ⟨rfl, rfl, he⟩

/-! The record registers. -/

/-- Settles O58: by the frame of the operation's unit; an abort leaves an error code. -/
theorem eachRegisterHasItsOwnWriter : Obligations.EachRegisterHasItsOwnWriter := by
  intro i s t hwf h hok hi
  rcases unitOfInstr_cases i with hP | hH | rfl | hD | ⟨hU, hsel, -⟩
  · rcases parser_frame i s t h hP with
      rfl | ⟨-, -, -, -, -, hcap, hthl, hspan, hnst, hpad, hhp, hdcs, hudl, hud⟩
    · cases hok
    · exact ⟨hhp, hdcs, hudl, hud, fun _ => ⟨hthl, hspan⟩, fun _ _ _ => hnst, fun _ => hpad, fun _ => hcap⟩
  · rcases header_frame i s t h hH with
      rfl | ⟨-, -, -, -, -, hcap, hpad, hhp, hdcs, hudl, hud0, hudn, hlen, hnst⟩
    · cases hok
    · exact ⟨fun _ => hhp, fun _ => hdcs, fun _ => hudl, fun _ => ⟨hud0, hudn⟩, hlen, hnst hwf, hpad, fun _ => hcap⟩
  · rw [execDSel_frame h]
    exact ⟨fun _ => rfl, fun _ => rfl, fun _ => rfl, fun _ => ⟨rfl, rfl⟩, fun _ => ⟨rfl, rfl⟩, fun _ _ _ => rfl,
      fun _ => rfl, fun hsel => absurd rfl hsel⟩
  · exact absurd hD hi
  · have hf := payload_frame i s t h hU hsel
    exact ⟨fun _ => hf.hp, fun _ => hf.dcs, fun _ => hf.udl, fun _ => ⟨hf.ud0, hf.udn⟩, fun _ => ⟨hf.thl, hf.span⟩,
      fun _ _ _ => hf.nst, fun _ => hf.pad, fun _ => hf.cap⟩

end Sys2Proof.Machine
end

section
/-!
PROOF. Reads outside their domain (R60, log 19), and what the host reads of a result (R298).
-/

namespace Sys2Proof.Machine

/-! The stops. -/

section

variable {s : State}

/-- An operation that begins with an octet stops where the octet has no value. -/
theorem need_withOct_stop {k : Byte → Result} (hroom : s.pos + 1 ≤ s.M) (h : s.oct? s.pos = none) :
    need 1 s (withOct s s.pos k) = .fault .octetOutOfDomain := by
  rw [need_ok hroom, withOct_none h]

/-- An operation that reads two octets stops where one of them has no value. -/
theorem withUd_withUd_stop {i j : Nat} {k : Byte → Byte → Result} (h : s.ud? i = none ∨ s.ud? j = none) :
    (withUd s i fun a => withUd s j fun b => k a b) = .fault .userDataOutOfDomain := by
  cases hi : s.ud? i with
  | none => exact withUd_none hi
  | some a =>
    rw [withUd_some hi]
    exact withUd_none (h.resolve_left (by simp [hi]))

theorem withPay_withPay_stop {i j : Nat} {k : Byte → Byte → Result} (h : s.pay? i = none ∨ s.pay? j = none) :
    (withPay s i fun a => withPay s j fun b => k a b) = .fault .userDataOutOfDomain :=
  withUd_withUd_stop h

/-- The five operations of `P` that read the octet at the cursor (R201, R202, R203, R205, R207). -/
theorem exec_field_stop (hroom : s.pos + 1 ≤ s.M) (h : s.oct? s.pos = none) :
    ∀ i ∈ [Instr.pSmsc, .pFlags, .pOa, .pDcs, .pUdl], exec i s = .fault .octetOutOfDomain := by
  simp only [List.forall_mem_cons, List.not_mem_nil, false_implies, implies_true, and_true]
  exact ⟨need_withOct_stop hroom h, need_withOct_stop hroom h, need_withOct_stop hroom h, need_withOct_stop hroom h,
    need_withOct_stop hroom h⟩

theorem execHLen_stop (hn : s.udn ≠ 0) (h : s.ud? 0 = none) : execHLen s = .fault .userDataOutOfDomain := by
  rw [execHLen, if_neg hn, withUd_none h]

theorem execHIe_stop (hroom : s.uoff + 1 < s.span) (h : s.ud? s.uoff = none ∨ s.ud? (s.uoff + 1) = none) :
    execHIe s = .fault .userDataOutOfDomain := by
  rw [execHIe, if_neg (by omega)]
  exact withUd_withUd_stop h

theorem execDOct8_stop (hlt : s.bitpos < s.payLen) (h : s.pay? s.bitpos = none) :
    execDOct8 s = .fault .userDataOutOfDomain := by
  rw [execDOct8, if_pos hlt, withPay_none h]

theorem execDUcs2_stop (hlt : s.bitpos + 1 < s.payLen) (h : s.pay? s.bitpos = none ∨ s.pay? (s.bitpos + 1) = none) :
    execDUcs2 s = .fault .userDataOutOfDomain := by
  rw [execDUcs2, if_pos (by omega), if_neg (by omega)]
  exact withPay_withPay_stop h

theorem ucs2Unit_stop {u : Nat} (hhigh : isHighSurrogate u = true) (hlt : s.bitpos + 3 < s.payLen)
    (h : s.pay? (s.bitpos + 2) = none ∨ s.pay? (s.bitpos + 3) = none) :
    ucs2Unit u s = .fault .userDataOutOfDomain := by
  have hu := isHighSurrogate_iff.1 hhigh
  rw [ucs2Unit, isPlainUnit_eq_false (by omega), if_neg Bool.false_ne_true, hhigh, Bool.true_and,
    if_pos (decide_eq_true hlt)]
  exact withPay_withPay_stop h

section

variable (hon : unpackEnabled s = true) (h : s.pay? (s.bitpos / 8) = none ∨ s.pay? ((s.bitpos + 6) / 8) = none)
include hon h

theorem execUNext_stop : execUNext s = .fault .userDataOutOfDomain := by
  rw [execUNext, if_pos hon]
  exact withPay_withPay_stop h

theorem pay7Step_stop (hport : s.port = none) : pay7Step s = .fault .userDataOutOfDomain := by
  rw [pay7Step, hport]
  simp only [if_pos hon, execUNext_stop hon h, andThen]

theorem execDGsm7_stop (hport : s.port = none) : execDGsm7 s = .fault .userDataOutOfDomain := by
  rw [execDGsm7, pay7Loop_succ (s := goto .pay7 s) rfl, pay7Step_stop (s := goto .pay7 s) hon h hport]
  rfl

end

end

/-- Settles O16: each operation stops at the read that has no value, the two that read a pair at the first such one. -/
theorem readsOutsideTheirDomainStop : Obligations.ReadsOutsideTheirDomainStop := by
  intro s
  refine ⟨exec_field_stop, execHLen_stop, execHIe_stop, execDOct8_stop, execDUcs2_stop,
    fun b0 b1 hlt h0 h1 hhigh h => ?_, fun hon h => ⟨execUNext_stop hon h, execDGsm7_stop hon h⟩⟩
  rw [exec_dUcs2, execDUcs2_read (by omega) h0 h1]
  exact ucs2Unit_stop hhigh hlt h

/-! What the host reads. -/

theorem hostReadT_done {s : State} (h : s.done = true) : hostReadT s = s.T := if_pos h

theorem hostReadText_done {s : State} {k : Nat} {c : CodePoint} (h : s.done = true) (hc : s.txt[k]? = some c) :
    hostReadText k s = c := by
  rw [hostReadText, if_pos h, hc]

/-- Settles O7: with `done` the reads are the registers', and a sound state with an error code holds no text. -/
theorem hostReadsTheResult : Obligations.HostReadsTheResult := by
  intro s h hdone
  refine ⟨hostReadT_done hdone, fun k c => hostReadText_done hdone, fun herr => ?_⟩
  rw [hostReadT_done hdone, State.T, (inv_iff_sound.1 h).2.txt_of_err herr, List.length_nil]

end Sys2Proof.Machine
end
